-- ==== Sys2Proof/Word.lean ====
section
/-! DEFINITION. The one data width of the NTTE (R7): every register and every DMEM word is 64 bits. -/

namespace Sys2Proof

/-- A register's value or a DMEM word (R7). All values are unsigned (R13). -/
abbrev Word := BitVec 64

/-- An exact number narrowed to a word. The rules give every value they store below `2^64`, so nothing is lost (R12). -/
abbrev wordOf (n : Nat) : Word := BitVec.ofNat 64 n

end Sys2Proof
end

