-- ==== Sys2Proof/Syntax.lean ====
section
/-! DEFINITION. What can be asked of the NTTE: the five commands (R71), the fields of a command word (R70), the registers
of the window (R21), and the host port's transactions, events and answers (R78, R208, R230). -/

namespace Sys2Proof

/-- The commands, one for each row of the opcode table (R71, R77). No command has an operand in its word (R74). -/
inductive Instr where
  | powmod
  | bitrev
  | nttCt
  | nttGs
  | intt
deriving DecidableEq, Repr

/-- The fields of a command word in the one format CMD (R70): OP in bits 3:0, VAR in bit 4, RSV in bits 63:5. -/
structure CmdFields where
  op  : BitVec 4
  var : BitVec 1
  rsv : BitVec 59
deriving DecidableEq, Repr

/-- The twelve host-visible registers (R21). -/
inductive RegName where
  | cmd | status | base | len | arg0 | arg1 | arg2 | result | errinfo | modulus | proot | dmemsz
deriving DecidableEq, Repr

/-- The kinds of bus error (R209). -/
inductive BusErrorKind where
  | width
  | offset
  | readOnly
  | dmemIndex
deriving DecidableEq, Repr

/-- A host transaction (R78). `width` is the number of bits it moves: every legal one moves 64 (R53); the check of it is
R182's. DEDUCED (log 16, safe): a location is a number of any size, and the check refuses those that do not exist. -/
inductive Transaction where
  | rrd (width offset : Nat)
  | rwr (width offset : Nat) (value : Word)
  | mrd (width index : Nat)
  | mwr (width index : Nat) (value : Word)
deriving DecidableEq, Repr

/-- What the outside does to the NTTE: a host transaction (R180) or the reset input (R230). -/
inductive HostEvent where
  | transaction (t : Transaction)
  | reset
deriving DecidableEq, Repr

/-- What the host port answers to one transaction: a read's value, a write's completion, or a bus error (R208). -/
inductive Response where
  | value (v : Word)
  | written
  | busError (kind : BusErrorKind)
deriving DecidableEq, Repr

/-- The assembler's lines (R79, R80) and pseudo-instructions (R81). `nttDefault` and `inttDefault` are the two-operand
forms, whose root is 3. -/
inductive Asm where
  | command (i : Instr)
  | wr (r : RegName) (v : Word)
  | rd (r : RegName)
  | mwr (index : Nat) (v : Word)
  | mrd (index : Nat)
  | poll
  | powmod (b e m : Word)
  | inv (x : Word)
  | bitrev (p n : Word)
  | nttCt (p n r : Word)
  | nttGs (p n r : Word)
  | intt (p n r : Word)
  | ntt (p n r : Word)
  | nttDefault (p n : Word)
  | inttDefault (p n : Word)
  | mload (p : Nat) (vs : List Word)
deriving DecidableEq, Repr

end Sys2Proof
end

