-- ==== Sys2Proof/WellFormed.lean ====
section
/-! DEFINITION. Which command words are legal (R71, R72, R75). A constructor of `Instr` has no field, so every instruction
is well formed; what can be ill formed is the word's fields, checked here one rule at a time. -/

namespace Sys2Proof

/-- RSV must be 0 (R70). -/
def CmdFields.rsvOk (f : CmdFields) : Bool := f.rsv == 0

/-- OP is one of the four assigned values; 0x0 and 0x5 to 0xF are reserved (R71, R75). -/
def CmdFields.opOk (f : CmdFields) : Bool := f.op == 0x1 || f.op == 0x2 || f.op == 0x3 || f.op == 0x4

/-- VAR may be 1 with OP = 0x3 only (R72). -/
def CmdFields.varOk (f : CmdFields) : Bool := f.var == 0 || f.op == 0x3

/-- The fields of a legal command word. -/
def CmdFields.wellFormed (f : CmdFields) : Bool := f.rsvOk && f.opOk && f.varOk

/-- The fields the encoding gives each command (R71, R72). -/
def Instr.fields : Instr → CmdFields
  | .powmod => { op := 0x1, var := 0, rsv := 0 }
  | .bitrev => { op := 0x2, var := 0, rsv := 0 }
  | .nttCt => { op := 0x3, var := 0, rsv := 0 }
  | .nttGs => { op := 0x3, var := 1, rsv := 0 }
  | .intt => { op := 0x4, var := 0, rsv := 0 }

/-- An instruction is well formed when its word's fields are. -/
def Instr.wellFormed (i : Instr) : Bool := i.fields.wellFormed

end Sys2Proof
end

