-- ==== Sys2Proof/Decode.lean ====
section
/-! DEFINITION. Command decoding (R73) and encoding (R70, R71). A command word is one whole 64-bit value, moved by one
register write; there are no bytes, no fetch and no operand words (R52, R76). -/

namespace Sys2Proof

/-- Why a word is Illegal (R75). The NTTE reports all three alike, as ILLEGAL_CMD. -/
inductive DecodeError where
  | reservedBits
  | reservedOp
  | reservedVariant
deriving DecidableEq, Repr

/-- The fields of a command word (R70). -/
def splitWord (c : Word) : CmdFields :=
  { op := c.extractLsb' 0 4, var := c.extractLsb' 4 1, rsv := c.extractLsb' 5 59 }

/-- The word with the given fields (R70). -/
def joinFields (f : CmdFields) : Word := f.rsv ++ f.var ++ f.op

/-- Decode of R73, total on all 2^64 words. -/
def decode (c : Word) : Except DecodeError Instr :=
  let f := splitWord c
  if f.rsv ≠ 0 then .error .reservedBits
  else if f.op = 0x1 then (if f.var = 0 then .ok .powmod else .error .reservedVariant)
  else if f.op = 0x2 then (if f.var = 0 then .ok .bitrev else .error .reservedVariant)
  else if f.op = 0x3 then (if f.var = 0 then .ok .nttCt else .ok .nttGs)
  else if f.op = 0x4 then (if f.var = 0 then .ok .intt else .error .reservedVariant)
  else .error .reservedOp

/-- The command word of an instruction (R70, R71, R77). -/
def encode (i : Instr) : Word := joinFields i.fields

/-- The instruction the decoder reads from a table row's bits: `nbits` of them in `w`, every bit above them 0. -/
def decodeTableWord (nbits w : Nat) : Option Instr :=
  match decode (wordOf (w % 2 ^ nbits)) with
  | .ok i => some i
  | .error _ => none

end Sys2Proof
end

