-- ==== Sys2Proof/Config.lean ====
section
/-! DEFINITION. What is fixed for one NTTE: the constants of R5, R6 and R8, the OPEN parameter DMEM_WORDS (R9), and the
free value of the completion delay (R190, R240). The two opaque constants have no body, so no proof can see a value. -/

namespace Sys2Proof.Config

/-- MODULUS, written `M` (R5). -/
def modulus : Nat := 998244353

/-- PRIMITIVE_ROOT, written `G` (R6). -/
def primitiveRoot : Nat := 3

/-- HMAX: the log2 of the largest transform length (R8, R11). -/
def hmax : Nat := 23

/-- The source of the OPEN parameter DMEM_WORDS (R9). No value of it can be proved. -/
opaque dmemWordsDraw : Nat

/-- DMEM_WORDS as register DMEMSZ carries it (R9, R33): any number from 1 to 2^64 - 1, which one is OPEN.
DEDUCED (log 2, safe): it is below 2^64 because the 64-bit register DMEMSZ reads it. -/
def dmemWords : Word := wordOf (dmemWordsDraw % (2 ^ 64 - 1) + 1)

/-- The completion delay of the `k`-th accepted command, counted in the host steps that the schedule places before the
engine step: finite and otherwise not fixed (R190, R240). A free value (log 6). -/
opaque completionDelay : Nat → Nat

end Sys2Proof.Config
end

