-- ==== Sys2Proof/Machine/State.lean ====
section
/-! DEFINITION. The machine's state as plain data (R43), the reasons a step can stop, and the state right after reset (R42). -/

namespace Sys2Proof.Machine

/-- Why the machine stops with a fault. -/
inductive Fault where
  /-- `ModelFault(UNWRITTEN_READ)` of R211, at DMEM word `index`. Raised by a host read (R186), by the reduced-input scan
  (R205) and by a swap of BITREV (R131) that meet a word nothing has written. SAFE: the spec gives such a state no value,
  and the run stops (log 3). -/
  | unwrittenRead (index : Nat)
deriving DecidableEq, Repr

/-- Why an instruction has no meaning. -/
inductive Refusal where
  /-- An instruction of the table that `exec` does not model yet. Raised by `exec`'s arms only; SAFE. No arm raises it now. -/
  | notModelled (mnemonic : String)
deriving DecidableEq, Repr

/-- The command errors (R202). Code 0x00, NONE, is the absence of an error. -/
inductive ErrCode where
  | illegalCmd
  | badLength
  | range
  | unreduced
  | modulusZero
deriving DecidableEq, Repr

/-- How a command's body ends early: `raise CmdError(code, info)` or `raise ModelFault` (R14). -/
inductive Abort where
  | cmdError (code : ErrCode) (info : Word)
  | modelFault (reason : Fault)
deriving DecidableEq, Repr

/-- DMEM (R35): the written words as (word index, value) cells, indexes strictly rising. An index that is not listed is an
unwritten word and reads as no value (R36). DEDUCED (log 1, safe): the cell is a whole word, the smallest unit there is (R52). -/
abbrev Memory := List (Nat × Word)

/-- The whole state (R43). `dmemsz` carries the OPEN parameter DMEM_WORDS, which no step writes (log 2). `host`,
`responses`, `delay` and `draws` are the model's own (logs 5, 6): the events still to come from outside, the host port's
answers (oldest first), the host steps still placed before the engine step, and the number of delays drawn. -/
structure State where
  cmd       : Word
  status    : Word
  base      : Word
  len       : Word
  arg0      : Word
  arg1      : Word
  arg2      : Word
  result    : Word
  errinfo   : Word
  dmemsz    : Word
  pending   : Bool
  dmem      : Memory
  faulted   : Bool
  host      : List HostEvent
  responses : List Response
  delay     : Nat
  draws     : Nat
deriving DecidableEq, Repr

/-- The machine right after reset (R42): every register 0, no pending command, every DMEM word unwritten, the fault mark
clear, nothing issued from outside yet. -/
def State.reset : State where
  cmd := 0
  status := 0
  base := 0
  len := 0
  arg0 := 0
  arg1 := 0
  arg2 := 0
  result := 0
  errinfo := 0
  dmemsz := Config.dmemWords
  pending := false
  dmem := []
  faulted := false
  host := []
  responses := []
  delay := 0
  draws := 0

end Sys2Proof.Machine
end

