-- ==== Sys2Proof/Machine/Flags.lean ====
section
/-! DEFINITION. The STATUS register: its fields (R23), the values the NTTE writes to it, and the error codes (R202). These
are the machine's only flags; no arithmetic flag exists (R39). -/

namespace Sys2Proof.Machine

/-- ERRCODE values (R202). -/
def ErrCode.byte : ErrCode → BitVec 8
  | .illegalCmd => 0x01
  | .badLength => 0x02
  | .range => 0x03
  | .unreduced => 0x04
  | .modulusZero => 0x05

/-- STATUS at acceptance: BUSY only (R183). -/
def statusBusy : Word := 0x1

/-- STATUS after a success: DONE only (R188). -/
def statusDone : Word := 0x2

/-- STATUS after an error: `(code << 8) | 0x6` (R201). -/
def statusError (code : ErrCode) : Word := (code.byte.zeroExtend 64 <<< 8) ||| 0x6

/-- BUSY, bit 0 (R23). -/
def statusBUSY (w : Word) : Bool := w.getLsbD 0

/-- DONE, bit 1 (R23). -/
def statusDONE (w : Word) : Bool := w.getLsbD 1

/-- ERR, bit 2 (R23). -/
def statusERR (w : Word) : Bool := w.getLsbD 2

/-- ERRCODE, bits 15:8 (R23). -/
def statusERRCODE (w : Word) : BitVec 8 := w.extractLsb' 8 8

/-- The reserved bits 7:3 and 63:16 read 0 (R23). -/
def statusReservedZero (w : Word) : Bool := w.extractLsb' 3 5 == 0 && w.extractLsb' 16 48 == 0

end Sys2Proof.Machine
end

