-- ==== Sys2Proof/Machine/Operands.lean ====
section
/-! DEFINITION. Operand assembly (R74): every operand is a fixed register's 64-bit value as an unsigned number, neither
extended, scaled nor shifted. LEN is the length itself. -/

namespace Sys2Proof.Machine

/-- POWMOD's base, ARG0 (R27, R104). -/
def State.powBase (s : State) : Nat := s.arg0.toNat

/-- POWMOD's exponent, ARG1 (R28, R104). -/
def State.powExponent (s : State) : Nat := s.arg1.toNat

/-- POWMOD's modulus, ARG2 (R29, R104). -/
def State.powModulus (s : State) : Nat := s.arg2.toNat

/-- The DMEM index of the sequence's element 0, BASE (R25). -/
def State.seqStart (s : State) : Nat := s.base.toNat

/-- The sequence's length `n`, LEN (R26). -/
def State.seqLength (s : State) : Nat := s.len.toNat

/-- The root of the transform commands, ARG0, used as it is (R27, R146). -/
def State.root (s : State) : Nat := s.arg0.toNat

/-- DMEM_WORDS (R9), read off DMEMSZ (R33). -/
def State.dmemWords (s : State) : Nat := s.dmemsz.toNat

end Sys2Proof.Machine
end

