-- ==== Sys2Proof/Machine/Ops.lean ====
section
/-! DEFINITION. The shared operations: DMEM access (R50), the register window (R21), command acceptance (R183), completion
(R188), the command error (R201), the bus error (R208) and the reset event (R230). -/

namespace Sys2Proof.Machine

/-! ## DMEM -/

/-- The value of DMEM word `i`, or none when nothing has written it (R36). -/
def Memory.read? : Memory → Nat → Option Word
  | [], _ => none
  | (j, w) :: rest, i => if j = i then some w else Memory.read? rest i

/-- DMEM with word `i` written with `v` (R50). Keeps the indexes strictly rising. -/
def Memory.write : Memory → Nat → Word → Memory
  | [], i, v => [(i, v)]
  | (j, w) :: rest, i, v =>
    if i < j then (i, v) :: (j, w) :: rest
    else if i = j then (i, v) :: rest
    else (j, w) :: Memory.write rest i v

/-- The canonical form: indexes strictly rising. An unlisted index has no value, so no cell can equal what it reads as. -/
abbrev Memory.wf (m : Memory) : Prop := (m.map Prod.fst).Pairwise (· < ·)

/-- Every written word has an index below DMEM_WORDS (R35). -/
abbrev Memory.within (words : Nat) (m : Memory) : Prop := ∀ c ∈ m, c.1 < words

/-- `MemRead(i, 8)` below DMEM_WORDS (R50): an unwritten word is a model fault (R211). -/
def Memory.fetch (m : Memory) (i : Nat) : Except Fault Word :=
  match m.read? i with
  | some v => .ok v
  | none => .error (.unwrittenRead i)

/-- `swap(p, q)`: both words are read before either is written (R14, R64). -/
def Memory.swap (m : Memory) (p q : Nat) : Except Fault Memory :=
  match m.fetch p with
  | .error e => .error e
  | .ok tp =>
    match m.fetch q with
    | .error e => .error e
    | .ok tq => .ok ((m.write p tq).write q tp)

/-- The `n` words from index `p`, ascending, as numbers. -/
def Memory.loadSeq (m : Memory) : (p n : Nat) → Except Fault (List Nat)
  | _, 0 => .ok []
  | p, n + 1 =>
    match m.fetch p with
    | .error e => .error e
    | .ok v =>
      match m.loadSeq (p + 1) n with
      | .error e => .error e
      | .ok vs => .ok (v.toNat :: vs)

/-- The words from index `p` written with the numbers of a list, ascending. -/
def Memory.storeSeq (m : Memory) : (p : Nat) → List Nat → Memory
  | _, [] => m
  | p, v :: vs => Memory.storeSeq (m.write p (wordOf v)) (p + 1) vs

/-! ## The state's named updates -/

/-- RESULT written (R30). -/
def State.setResult (s : State) (v : Word) : State := { s with result := v }

/-- DMEM replaced. -/
def State.setDmem (s : State) (m : Memory) : State := { s with dmem := m }

/-- One answer of the host port, after the earlier ones. -/
def State.respond (s : State) (r : Response) : State := { s with responses := s.responses ++ [r] }

/-- The queue of outside events without the one that moves now (log 5). -/
def State.takeEvent (s : State) (rest : List HostEvent) : State := { s with host := rest }

/-- One of the host steps placed before the engine step is over (R190; log 6). -/
def State.spendDelay (s : State) : State := { s with delay := s.delay - 1 }

/-- Command acceptance (R183): CMD holds the word, STATUS says BUSY only, ERRINFO is 0, the command is pending. The
completion delay is drawn here: a free value (log 6). -/
def State.accept (s : State) (v : Word) : State :=
  { s with
    cmd := v
    status := statusBusy
    errinfo := 0
    pending := true
    delay := Config.completionDelay s.draws
    draws := s.draws + 1 }

/-- Success completion, the last two lines of the engine step (R188). -/
def State.complete (s : State) : State := { s with status := statusDone, pending := false }

/-- `CmdError(code, info)`, the NTTE's one exception (R201, R213): STATUS, ERRINFO and pending change and nothing else. -/
def State.cmdError (s : State) (code : ErrCode) (info : Word) : State :=
  { s with status := statusError code, errinfo := info, pending := false }

/-- `BusError(kind)` (R208): no register, DMEM word or pending state changes; the host gets the error response, and the
fault mark is set. The machine goes on, as the hardware does (log 4). -/
def State.busError (s : State) (kind : BusErrorKind) : State :=
  { s with faulted := true, responses := s.responses ++ [.busError kind] }

/-- The reset event (R230, R231): every register that is no constant becomes 0, the pending command is dropped and every
DMEM word becomes unwritten. The fault mark and the constant DMEMSZ stay; what is outside the NTTE stays (log 8). -/
def State.resetEvent (s : State) : State :=
  { s with
    cmd := 0
    status := 0
    base := 0
    len := 0
    arg0 := 0
    arg1 := 0
    arg2 := 0
    result := 0
    errinfo := 0
    pending := false
    dmem := [] }

/-! ## The register window -/

/-- A register's byte offset (R21). -/
def regOffset : RegName → Nat
  | .cmd => 0x00
  | .status => 0x08
  | .base => 0x10
  | .len => 0x18
  | .arg0 => 0x20
  | .arg1 => 0x28
  | .arg2 => 0x30
  | .result => 0x38
  | .errinfo => 0x40
  | .modulus => 0x48
  | .proot => 0x50
  | .dmemsz => 0x58

/-- The register at a byte offset; none for a misaligned or unmapped one (R21, R54). -/
def regAt : Nat → Option RegName
  | 0x00 => some .cmd
  | 0x08 => some .status
  | 0x10 => some .base
  | 0x18 => some .len
  | 0x20 => some .arg0
  | 0x28 => some .arg1
  | 0x30 => some .arg2
  | 0x38 => some .result
  | 0x40 => some .errinfo
  | 0x48 => some .modulus
  | 0x50 => some .proot
  | 0x58 => some .dmemsz
  | _ => none

/-- The registers a host may write (R21). -/
def regWritable : RegName → Bool
  | .cmd | .base | .len | .arg0 | .arg1 | .arg2 => true
  | .status | .result | .errinfo | .modulus | .proot | .dmemsz => false

/-- `x[NAME]` (R14, R184). MODULUS and PROOT are constants (R31, R32). -/
def State.readReg (s : State) : RegName → Word
  | .cmd => s.cmd
  | .status => s.status
  | .base => s.base
  | .len => s.len
  | .arg0 => s.arg0
  | .arg1 => s.arg1
  | .arg2 => s.arg2
  | .result => s.result
  | .errinfo => s.errinfo
  | .modulus => wordOf Config.modulus
  | .proot => wordOf Config.primitiveRoot
  | .dmemsz => s.dmemsz

/-- A host write of a register (R185): CMD accepts a command, the other writable registers store the value. The port has
refused a write of a read-only register before this (R182), which therefore stores nothing here. -/
def State.writeReg (s : State) (r : RegName) (v : Word) : State :=
  match r with
  | .cmd => s.accept v
  | .base => { s with base := v }
  | .len => { s with len := v }
  | .arg0 => { s with arg0 := v }
  | .arg1 => { s with arg1 := v }
  | .arg2 => { s with arg2 := v }
  | .status | .result | .errinfo | .modulus | .proot | .dmemsz => s

/-! ## Running a command -/

/-- How an engine step ends, given what the command's body answers (R188, R201, R211): success completion, the command
error on the state the command started from, or the model fault. -/
def finishCommand (s : State) : Except Abort State → Host.Outcome State Fault Refusal
  | .ok s' => .next s'.complete
  | .error (.cmdError code info) => .next (s.cmdError code info)
  | .error (.modelFault f) => .fault f

/-- Whether `n = 2^h` for some `h ≤ hmax` (R203). -/
def isPowerOfTwo (hmax n : Nat) : Bool := (List.range (hmax + 1)).any (fun h => n == 2 ^ h)

/-- The length check and then the range check of a sequence command (R203, R204). The sum is exact. -/
def checkSequence (hmax p n words : Nat) : Except Abort Unit :=
  if isPowerOfTwo hmax n = false then .error (.cmdError .badLength 0)
  else if words < p + n then .error (.cmdError .range 0)
  else .ok ()

/-- The reduced-input scan (R205): the `n` words from `p` in ascending order, up to the first that is not a field
element (UNREDUCED, with its DMEM index) or that is unwritten (R211). -/
def scanReduced (m : Memory) : (p n : Nat) → Except Abort Unit
  | _, 0 => .ok ()
  | p, n + 1 =>
    match m.fetch p with
    | .error f => .error (.modelFault f)
    | .ok v =>
      if Config.modulus ≤ v.toNat then .error (.cmdError .unreduced (wordOf p))
      else scanReduced m (p + 1) n

/-- `check_transform(p, n)` (R205): BAD_LENGTH, then RANGE, then UNREDUCED (R207). -/
def checkTransform (m : Memory) (p n words : Nat) : Except Abort Unit :=
  match checkSequence Config.hmax p n words with
  | .error a => .error a
  | .ok () => scanReduced m p n

end Sys2Proof.Machine
end

