-- ==== Sys2Proof/Machine/ModArith.lean ====
section
/-! DEFINITION. The modular reduction unit (R100-R102), modular exponentiation (R103), the Fermat inverse (R105) and the
command POWMOD (R104). Numbers are exact; operands of the reduction unit are field elements (R106). -/

namespace Sys2Proof.Machine

/-- `addM(a, b)` (R100). -/
def addM (a b : Nat) : Nat :=
  let s := a + b
  if Config.modulus ≤ s then s - Config.modulus else s

/-- `subM(a, b)` (R101). -/
def subM (a b : Nat) : Nat :=
  let s := a + Config.modulus - b
  if Config.modulus ≤ s then s - Config.modulus else s

/-- `mulM(a, b)` (R102). -/
def mulM (a b : Nat) : Nat := a * b % Config.modulus

/-- The loop of R103, at most `fuel` iterations of it: `r`, `b` and `e` are its variables. -/
def powmodLoop (m : Nat) : (fuel r b e : Nat) → Nat
  | 0, r, _, _ => r
  | fuel + 1, r, b, e =>
    if e = 0 then r
    else powmodLoop m fuel (if e % 2 = 1 then r * b % m else r) (b * b % m) (e / 2)

/-- `powmod(b, e, m)` for `m ≥ 1` and a 64-bit exponent, which has at most 64 bits to consume (R103). -/
def powmod (b e m : Nat) : Nat := powmodLoop m 64 (1 % m) (b % m) e

/-- `inv(x)`, the Fermat inverse (R105); 0 for `x` that is 0 modulo M. -/
def inverse (x : Nat) : Nat := powmod x (Config.modulus - 2) Config.modulus

/-- POWMOD's body (R104). -/
def powmodBody (s : State) : Except Abort State :=
  if s.powModulus = 0 then .error (.cmdError .modulusZero 0)
  else .ok (s.setResult (wordOf (powmod s.powBase s.powExponent s.powModulus)))

/-- POWMOD (R104). -/
def execPowmod (s : State) : Host.Outcome State Fault Refusal := finishCommand s (powmodBody s)

end Sys2Proof.Machine
end

