-- ==== Sys2Proof/Machine/Permutation.lean ====
section
/-! DEFINITION. The bit-reversal permutation unit (R130, R131) and the command BITREV (R132). -/

namespace Sys2Proof.Machine

/-- The recurrence of R130 for entry `i`, given the entries below it. -/
def revEntry (n : Nat) (rev : List Nat) (i : Nat) : Nat :=
  (rev.getD (i >>> 1) 0 >>> 1) ||| (if i % 2 = 1 then n / 2 else 0)

/-- The loop of R130: `k` more entries, the next of them entry `i`. -/
def revtableLoop (n : Nat) : (k i : Nat) → List Nat → List Nat
  | 0, _, rev => rev
  | k + 1, i, rev => revtableLoop n k (i + 1) (rev ++ [revEntry n rev i])

/-- `revtable(n)` (R130). -/
def revtable (n : Nat) : List Nat := revtableLoop n (n - 1) 1 [0]

/-- The loop of R131 over the indices still to visit: swap where `i < rev[i]`. -/
def bitrevLoop (p : Nat) (rev : List Nat) : List Nat → Memory → Except Fault Memory
  | [], m => .ok m
  | i :: rest, m =>
    if i < rev.getD i 0 then
      match m.swap (p + i) (p + rev.getD i 0) with
      | .error f => .error f
      | .ok m' => bitrevLoop p rev rest m'
    else bitrevLoop p rev rest m

/-- `bitrev(p, n)` (R131). -/
def bitrev (m : Memory) (p n : Nat) : Except Fault Memory := bitrevLoop p (revtable n) (List.range n) m

/-- BITREV's body (R132): any power of two is a length (for a 64-bit LEN, `h ≤ 63`), and no word is checked. -/
def bitrevBody (s : State) : Except Abort State :=
  match checkSequence 63 s.seqStart s.seqLength s.dmemWords with
  | .error a => .error a
  | .ok () =>
    match bitrev s.dmem s.seqStart s.seqLength with
    | .error f => .error (.modelFault f)
    | .ok m => .ok (s.setDmem m)

/-- BITREV (R132). -/
def execBitrev (s : State) : Host.Outcome State Fault Refusal := finishCommand s (bitrevBody s)

end Sys2Proof.Machine
end

