-- ==== Sys2Proof/Machine/Transform.lean ====
section
/-! DEFINITION. The butterfly network in its two forms (R140-R144) and the commands NTT.CT (R145) and NTT.GS (R147).
A stage is computed on the sequence of the command's words, window by window, with the running twiddle of the rules.
DEDUCED (log 12, safe): the butterflies of a stage touch disjoint words (R142, R144) and a command is atomic (R55), so
working on the words read once and written back once gives what the in-place loops give. -/

namespace Sys2Proof.Machine

/-- The running twiddle: `count` values from `w`, each the one before it times `base` (R140, R143). -/
def twiddles (base : Nat) : (count w : Nat) → List Nat
  | 0, _ => []
  | count + 1, w => w :: twiddles base count (mulM w base)

/-- A function of one window applied to each of the first `count` windows of `width` words. -/
def mapWindows (f : List Nat → List Nat) (width : Nat) : (count : Nat) → List Nat → List Nat
  | 0, _ => []
  | count + 1, a => f (a.take width) ++ mapWindows f width count (a.drop width)

/-- One window of Variant A with half-width `m` (R140): `(u, t)` gives `(u + w*t, u - w*t)`, `w` starting at 1. -/
def ctWindow (base m : Nat) (a : List Nat) : List Nat :=
  let us := a.take m
  let vs := List.zipWith mulM (twiddles base m 1) (a.drop m)
  List.zipWith addM us vs ++ List.zipWith subM us vs

/-- The stage root of Variant A (R141). -/
def stageRoot (r mh : Nat) : Nat := powmod r ((Config.modulus - 1) / mh) Config.modulus

/-- The stage of window width `mh` of Variant A (R140). -/
def ctStage (r mh : Nat) (a : List Nat) : List Nat :=
  mapWindows (ctWindow (stageRoot r mh) (mh / 2)) mh (a.length / mh) a

/-- The next `k` stages of Variant A, window widths `mh`, `2*mh`, ... (R140). -/
def ctStages (r : Nat) : (k mh : Nat) → List Nat → List Nat
  | 0, _, a => a
  | k + 1, mh, a => ctStages r k (2 * mh) (ctStage r mh a)

/-- All `h` stages of Variant A on a sequence of `2^h` words in bit-reversed order (R140). -/
def ctNetwork (r : Nat) (a : List Nat) : List Nat := ctStages r a.length.log2 2 a

/-- One block pair of Variant B with half-width `m` (R143): `(u, d)` gives `(u + d, w*(u - d))`, `w` starting at 1. -/
def gsWindow (base m : Nat) (a : List Nat) : List Nat :=
  let us := a.take m
  let ds := a.drop m
  List.zipWith addM us ds ++ List.zipWith mulM (twiddles base m 1) (List.zipWith subM us ds)

/-- The stage of half-width `m` of Variant B with stage root `base` (R143). -/
def gsStage (base m : Nat) (a : List Nat) : List Nat :=
  mapWindows (gsWindow base m) (2 * m) (a.length / (2 * m)) a

/-- The next `k` stages of Variant B: the half-width is halved and the root squared after each (R143). -/
def gsStages : (k base m : Nat) → List Nat → List Nat
  | 0, _, _, a => a
  | k + 1, base, m, a => gsStages k (mulM base base) (m / 2) (gsStage base m a)

/-- All `h` stages of Variant B on a sequence of `2^h` words (R143). -/
def gsNetwork (r : Nat) (a : List Nat) : List Nat :=
  gsStages a.length.log2 (stageRoot r a.length) (a.length / 2) a

/-- An in-place transform of the `n` words from `p`: permute, then run `network` on the sequence (R140, R143). -/
def permuteThen (network : List Nat → List Nat) (m : Memory) (p n : Nat) : Except Fault Memory :=
  match bitrev m p n with
  | .error f => .error f
  | .ok m' =>
    match m'.loadSeq p n with
    | .error f => .error f
    | .ok a => .ok (m'.storeSeq p (network a))

/-- A transform command's body: `check_transform`, then the transform (R145, R147, R171). -/
def transformBody (network : List Nat → List Nat) (s : State) : Except Abort State :=
  match checkTransform s.dmem s.seqStart s.seqLength s.dmemWords with
  | .error a => .error a
  | .ok () =>
    match permuteThen network s.dmem s.seqStart s.seqLength with
    | .error f => .error (.modelFault f)
    | .ok m => .ok (s.setDmem m)

/-- NTT.CT (R145). -/
def execNttCt (s : State) : Host.Outcome State Fault Refusal :=
  finishCommand s (transformBody (ctNetwork s.root) s)

/-- NTT.GS (R147). -/
def execNttGs (s : State) : Host.Outcome State Fault Refusal :=
  finishCommand s (transformBody (gsNetwork s.root) s)

end Sys2Proof.Machine
end

