-- ==== Sys2Proof/Machine/Inverse.lean ====
section
/-! DEFINITION. The inverse transform (R170) and the command INTT (R171). -/

namespace Sys2Proof.Machine

/-- The inverse network (R170): Variant A's with the inverse root, then every element times the inverse of `n`. -/
def inttNetwork (r : Nat) (a : List Nat) : List Nat :=
  (ctNetwork (inverse r) a).map (fun x => mulM x (inverse a.length))

/-- INTT (R171). -/
def execIntt (s : State) : Host.Outcome State Fault Refusal :=
  finishCommand s (transformBody (inttNetwork s.root) s)

end Sys2Proof.Machine
end

