-- ==== Sys2Proof/Machine/Dispatch.lean ====
section
/-! DEFINITION. One arm per instruction. -/

namespace Sys2Proof.Machine

def exec (i : Instr) (s : State) : Host.Outcome State Fault Refusal :=
  match i with
  | .powmod => Sys2Proof.Machine.execPowmod s
  | .bitrev => Sys2Proof.Machine.execBitrev s
  | .nttCt => Sys2Proof.Machine.execNttCt s
  | .nttGs => Sys2Proof.Machine.execNttGs s
  | .intt => Sys2Proof.Machine.execIntt s

end Sys2Proof.Machine
end

