-- ==== Sys2Proof/Machine/Engine.lean ====
section
/-! DEFINITION. The engine step (R188): the latched word decoded, then the whole command as one transition. -/

namespace Sys2Proof.Machine

/-- The engine step (R188). A word that is Illegal ends with ILLEGAL_CMD (R73, R75, R202). -/
def engineStep (s : State) : Host.Outcome State Fault Refusal :=
  match decode s.cmd with
  | .error _ => .next (s.cmdError .illegalCmd 0)
  | .ok i => exec i s

/-- The state in which the engine is about to run the command word `w`, as if it had just been accepted (R183) and no
host step were placed before the engine step (log 10). -/
def latchCommand (s : State) (w : Word) : State :=
  { s with cmd := w, status := statusBusy, errinfo := 0, pending := true, delay := 0 }

end Sys2Proof.Machine
end

