-- ==== Sys2Proof/Machine/HostPort.lean ====
section
/-! DEFINITION. The host port: the check order (R182), the four transactions (R184-R187), the hold (R181), and which agent
moves next (R189). -/

namespace Sys2Proof.Machine

/-- The number of bits a transaction moves (R53). -/
def transactionWidth : Transaction → Nat
  | .rrd w _ | .rwr w _ _ | .mrd w _ | .mwr w _ _ => w

/-- The location check of R182. -/
def locationError (words : Nat) : Transaction → Option BusErrorKind
  | .rrd _ off | .rwr _ off _ => if (regAt off).isNone then some .offset else none
  | .mrd _ i | .mwr _ i _ => if words ≤ i then some .dmemIndex else none

/-- The access check of R182: a write of a read-only register. -/
def accessError : Transaction → Option BusErrorKind
  | .rwr _ off _ => if (regAt off).any (fun r => !regWritable r) then some .readOnly else none
  | .rrd _ _ | .mrd _ _ | .mwr _ _ _ => none

/-- The bus error of a malformed transaction: width, then location, then access (R182, R209). -/
def busErrorOf (words : Nat) (t : Transaction) : Option BusErrorKind :=
  if transactionWidth t ≠ 64 then some .width
  else
    match locationError words t with
    | some k => some k
    | none => accessError t

/-- RRD at an offset the port has accepted (R184). -/
def registerRead (s : State) (off : Nat) : Host.Outcome State Fault Refusal :=
  match regAt off with
  | some r => .next (s.respond (.value (s.readReg r)))
  | none => .next (s.busError .offset)

/-- RWR at an offset the port has accepted (R185). -/
def registerWrite (s : State) (off : Nat) (v : Word) : Host.Outcome State Fault Refusal :=
  match regAt off with
  | some r => .next ((s.writeReg r v).respond .written)
  | none => .next (s.busError .offset)

/-- MRD at an index the port has accepted (R186): an unwritten word is a model fault (R211). -/
def dmemRead (s : State) (i : Nat) : Host.Outcome State Fault Refusal :=
  match s.dmem.fetch i with
  | .ok v => .next (s.respond (.value v))
  | .error f => .fault f

/-- MWR at an index the port has accepted (R187). -/
def dmemWrite (s : State) (i : Nat) (v : Word) : Host.Outcome State Fault Refusal :=
  .next ((s.setDmem (s.dmem.write i v)).respond .written)

/-- A transaction that has passed R182. -/
def perform (s : State) : Transaction → Host.Outcome State Fault Refusal
  | .rrd _ off => registerRead s off
  | .rwr _ off v => registerWrite s off v
  | .mrd _ i => dmemRead s i
  | .mwr _ i v => dmemWrite s i v

/-- One host transaction that is not held: checked (R182), then performed or refused with a bus error (R208). -/
def transact (s : State) (t : Transaction) : Host.Outcome State Fault Refusal :=
  match busErrorOf s.dmemWords t with
  | some k => .next (s.busError k)
  | none => perform s t

/-- One event from outside: a transaction (R180) or the reset input (R230). -/
def hostStep (s : State) : HostEvent → Host.Outcome State Fault Refusal
  | .transaction t => transact s t
  | .reset => .next s.resetEvent

/-- Whether an event may step while a command is pending: the 64-bit read of STATUS (R181) and the reset input (R231).
DEDUCED (log 11, safe): a STATUS access of another width is a bus-error case, which R181 holds. -/
def notHeld (e : HostEvent) : Bool :=
  e == .reset || e == .transaction (.rrd 64 0x08)

/-- Who moves next. -/
inductive Mover where
  | engine
  | outside (e : HostEvent) (s : State)
  | nobody
deriving DecidableEq, Repr

/-- Which of the enabled agents moves (R181, R189). While a command is pending the engine is always enabled, and an event
that is not held may go first as long as the drawn delay lasts (R190; log 6). With nothing pending the next event goes, if
there is one. An event that moves has left the queue in the state given. -/
def nextMover (s : State) : Mover :=
  match s.pending, s.host with
  | true, e :: rest =>
    if notHeld e ∧ s.delay ≠ 0 then .outside e (s.takeEvent rest).spendDelay else .engine
  | true, [] => .engine
  | false, e :: rest => .outside e (s.takeEvent rest)
  | false, [] => .nobody

end Sys2Proof.Machine
end

