-- ==== Sys2Proof/Machine/Step.lean ====
section
/-! DEFINITION. One step of the machine (R189): an engine step, or one event from outside. -/

namespace Sys2Proof.Machine

/-- One step (R189). When nothing is enabled the machine stays as it is: DESIGN CHOICE (log 7, safe). -/
def step (s : State) : Host.Outcome State Fault Refusal :=
  match nextMover s with
  | .engine => engineStep s
  | .outside e s' => hostStep s' e
  | .nobody => .next s

/-- The state in which `step` runs exactly the command whose `nbits` bits are `w` (log 10). The NTTE fetches nothing: the
command word is in CMD (R20, R62). -/
def State.withFetchWord (s : State) (nbits w : Nat) : State :=
  latchCommand s (wordOf (w % 2 ^ nbits))

end Sys2Proof.Machine
end

