-- ==== Sys2Proof/Machine/Assembler.lean ====
section
/-! DEFINITION. The assembler's lines and pseudo-instructions as the transactions they stand for (R79-R81). A program of
the host is a list of them put in State's `host`. -/

namespace Sys2Proof.Machine

/-- `wr REG, v` (R80). -/
def wrLine (r : RegName) (v : Word) : Transaction := .rwr 64 (regOffset r) v

/-- `rd t, REG` (R80). -/
def rdLine (r : RegName) : Transaction := .rrd 64 (regOffset r)

/-- A bare command mnemonic: the CMD write of its word (R79). -/
def commandLine (i : Instr) : Transaction := wrLine .cmd (encode i)

/-- `poll` (R81): `k + 1` reads of STATUS, where `k` is how many of them see BUSY (R190). -/
def pollLines (k : Nat) : List Transaction := List.replicate (k + 1) (rdLine .status)

/-- `mload` (R81): one MWR for each value, at ascending indexes. -/
def mloadLines : (p : Nat) → List Word → List Transaction
  | _, [] => []
  | p, v :: vs => .mwr 64 p v :: mloadLines (p + 1) vs

/-- A sequence command: BASE and LEN, for a transform ARG0, then the command and its poll (R81). -/
def sequenceLines (k : Nat) (i : Instr) (p n : Word) (root : Option Word) : List Transaction :=
  [wrLine .base p, wrLine .len n] ++ (root.map (wrLine .arg0)).toList ++ [commandLine i] ++ pollLines k

/-- The pseudo-instruction `powmod b, e, m` (R81). -/
def powmodLines (k : Nat) (b e m : Word) : List Transaction :=
  [wrLine .arg0 b, wrLine .arg1 e, wrLine .arg2 m, commandLine .powmod] ++ pollLines k

/-- The transactions of a line (R79-R81), with `k + 1` STATUS reads in its poll if it has one. -/
def expand (k : Nat) : Asm → List Transaction
  | .command i => [commandLine i]
  | .wr r v => [wrLine r v]
  | .rd r => [rdLine r]
  | .mwr i v => [.mwr 64 i v]
  | .mrd i => [.mrd 64 i]
  | .poll => pollLines k
  | .powmod b e m => powmodLines k b e m
  | .inv x => powmodLines k x (wordOf (Config.modulus - 2)) (wordOf Config.modulus)
  | .bitrev p n => sequenceLines k .bitrev p n none
  | .nttCt p n r => sequenceLines k .nttCt p n (some r)
  | .nttGs p n r => sequenceLines k .nttGs p n (some r)
  | .intt p n r => sequenceLines k .intt p n (some r)
  | .ntt p n r => sequenceLines k .nttCt p n (some r)
  | .nttDefault p n => sequenceLines k .nttCt p n (some 3)
  | .inttDefault p n => sequenceLines k .intt p n (some 3)
  | .mload p vs => mloadLines p vs

end Sys2Proof.Machine
end

