-- ==== Sys2Proof/Safety.lean ====
section
/-! DEFINITION. What a legal state is, what the end of a run is, and the words in which the statements speak of DMEM. -/

namespace Sys2Proof.Machine

/-- The values STATUS can hold (R23, R24): 0 before the first command, 0x1, 0x2, and one for each error code. -/
def legalStatuses : List Word :=
  [0, statusBusy, statusDone, statusError .illegalCmd, statusError .badLength, statusError .range,
    statusError .unreduced, statusError .modulusZero]

/-- The invariant of the machine: DMEM is canonical and inside DMEM_WORDS (R35), DMEM_WORDS is at least 1 (R9), STATUS is
legal and its BUSY is the pending bit (R24, R37), before the first command nothing has been accepted (R24, R30, R34), and
ERRINFO is 0 unless the last command ended with UNREDUCED (R34). -/
structure State.Inv (s : State) : Prop where
  dmem_wf : s.dmem.wf
  dmem_within : s.dmem.within s.dmemWords
  dmem_nonempty : 1 ≤ s.dmemWords
  status_legal : s.status ∈ legalStatuses
  busy_iff_pending : statusBUSY s.status = s.pending
  idle_is_fresh : s.status = 0 → s.cmd = 0 ∧ s.result = 0 ∧ s.errinfo = 0
  errinfo_only_unreduced : s.status ≠ statusError .unreduced → s.errinfo = 0

/-- The end of a run (R191): no transaction left, nothing pending, and the fault mark clear. DESIGN CHOICE (log 22, safe):
R191 is silent on a reset input still to come, and a state whose list `host` holds one is not the end here. -/
def State.ended (s : State) : Prop := s.host = [] ∧ s.pending = false ∧ s.faulted = false

/-- `k` steps, up to the first that does not answer a next state. -/
def runSteps : (k : Nat) → State → Host.Outcome State Fault Refusal
  | 0, s => .next s
  | k + 1, s =>
    match step s with
    | .next t => runSteps k t
    | .fault f => .fault f
    | .refused r => .refused r

/-- The words from index `p` hold the field elements of the list `a`, in order. -/
def Memory.holds (m : Memory) (p : Nat) (a : List Nat) : Prop :=
  ∀ (i : Nat) (h : i < a.length), a[i] < Config.modulus ∧ m.read? (p + i) = some (wordOf a[i])

/-- Two memories agree outside the `n` words from `p`. -/
def Memory.sameOutside (m m' : Memory) (p n : Nat) : Prop :=
  ∀ i, ¬(p ≤ i ∧ i < p + n) → m'.read? i = m.read? i

/-- The `n` words from `p` are all written. -/
def Memory.written (m : Memory) (p n : Nat) : Prop := ∀ i, p ≤ i → i < p + n → ∃ v, m.read? i = some v

/-- The engine moves next: a command is pending, and either the schedule places no host step before the engine step, or
the next event is neither a STATUS read nor the reset input, so that it cannot step (R181, R231). -/
def State.engineTurn (s : State) : Prop :=
  s.pending = true ∧
    (s.delay = 0 ∨ ∀ e rest, s.host = e :: rest → e ≠ .reset ∧ ∀ w, e ≠ .transaction (.rrd w 0x08))

/-- The event `e` moves next, and `rest` is what is to come after it: nothing is pending, so no event is held. -/
def State.hostTurn (s : State) (e : HostEvent) (rest : List HostEvent) : Prop :=
  s.pending = false ∧ s.host = e :: rest

/-- The integer formed by reversing the low `h` bits of `i` (R130). -/
def reverseBits : (h i : Nat) → Nat
  | 0, _ => 0
  | h + 1, i => (i % 2) * 2 ^ h + reverseBits h (i / 2)

/-! ## The rules' loops

The pseudocode of R131, R140, R143 and R170 as it stands there, on a DMEM given as a function from word indexes to values.
No part of the machine uses these: statements compare the commands with them. -/

/-- `D[i] <- v`. -/
def put (D : Nat → Nat) (i v : Nat) : Nat → Nat := fun k => if k = i then v else D k

/-- `swap(p, q)` of R14. -/
def loopSwap (D : Nat → Nat) (p q : Nat) : Nat → Nat :=
  let tp := D p
  let tq := D q
  put (put D p tq) q tp

/-- `bitrev(p, n)` of R131. -/
def loopBitrev (p n : Nat) (D : Nat → Nat) : Nat → Nat :=
  (List.range n).foldl
    (fun D i => if i < (revtable n).getD i 0 then loopSwap D (p + i) (p + (revtable n).getD i 0) else D) D

/-- The body of the innermost loop of R140: DMEM and `w` before and after. -/
def loopCtButterfly (p k m base : Nat) (Dw : (Nat → Nat) × Nat) (j : Nat) : (Nat → Nat) × Nat :=
  let u := Dw.1 (p + k + j)
  let t := Dw.1 (p + k + j + m)
  let v := mulM Dw.2 t
  (put (put Dw.1 (p + k + j) (addM u v)) (p + k + j + m) (subM u v), mulM Dw.2 base)

/-- The loop over `k` of R140 for one value of `mh`. -/
def loopCtStage (p n r mh : Nat) (D : Nat → Nat) : Nat → Nat :=
  (List.range (n / mh)).foldl
    (fun D q => ((List.range (mh / 2)).foldl
      (loopCtButterfly p (q * mh) (mh / 2) (powmod r ((Config.modulus - 1) / mh) Config.modulus)) (D, 1)).1) D

/-- The while loop of R140, at most `fuel` rounds of it. -/
def loopCtWhile (p n r : Nat) : (fuel mh : Nat) → (Nat → Nat) → (Nat → Nat)
  | 0, _, D => D
  | fuel + 1, mh, D => if mh ≤ n then loopCtWhile p n r fuel (2 * mh) (loopCtStage p n r mh D) else D

/-- `ntt_ct(p, n, r)` of R140 for `n ≤ 2^23`. -/
def loopNttCt (p n r : Nat) (D : Nat → Nat) : Nat → Nat := loopCtWhile p n r 24 2 (loopBitrev p n D)

/-- The body of the innermost loop of R143: DMEM and `w` before and after. -/
def loopGsButterfly (p k m base : Nat) (Dw : (Nat → Nat) × Nat) (s : Nat) : (Nat → Nat) × Nat :=
  let u := Dw.1 (p + k + s)
  let d := Dw.1 (p + k + s + m)
  (put (put Dw.1 (p + k + s) (addM u d)) (p + k + s + m) (mulM Dw.2 (subM u d)), mulM Dw.2 base)

/-- The loop over `k` of R143 for one value of `m`. -/
def loopGsStage (p n base m : Nat) (D : Nat → Nat) : Nat → Nat :=
  (List.range (n / (2 * m))).foldl
    (fun D q => ((List.range m).foldl (loopGsButterfly p (q * (2 * m)) m base) (D, 1)).1) D

/-- The while loop of R143, at most `fuel` rounds of it. -/
def loopGsWhile (p n : Nat) : (fuel base m : Nat) → (Nat → Nat) → (Nat → Nat)
  | 0, _, _, D => D
  | fuel + 1, base, m, D =>
    if 1 ≤ m then loopGsWhile p n fuel (mulM base base) (m / 2) (loopGsStage p n base m D) else D

/-- `ntt_gs(p, n, r)` of R143 for `n ≤ 2^23`. -/
def loopNttGs (p n r : Nat) (D : Nat → Nat) : Nat → Nat :=
  loopGsWhile p n 24 (powmod r ((Config.modulus - 1) / n) Config.modulus) (n / 2) (loopBitrev p n D)

/-- `intt_fn(p, n, r)` of R170 for `n ≤ 2^23`. -/
def loopIntt (p n r : Nat) (D : Nat → Nat) : Nat → Nat :=
  let nInv := powmod n (Config.modulus - 2) Config.modulus
  let rInv := powmod r (Config.modulus - 2) Config.modulus
  (List.range n).foldl (fun D i => put D (p + i) (mulM (D (p + i)) nInv)) (loopNttCt p n rInv D)

end Sys2Proof.Machine
end

