-- ==== Sys2Proof/Certificates/Slice0/Obligations.lean ====
section
/-! DEFINITION. What is claimed of the machine: one `def Obligations.<Name> : Prop` for each statement. Each docstring
names the rule of the spec it formalises. Where a statement compares a whole state, every field it does not name is
unchanged: that is its frame. -/

open Sys2Proof Sys2Proof.Machine

/-! ## Encoding -/

/-- R79: the words of the five commands, as the table numbers their bits. -/
def Obligations.CommandWordsDecode : Prop :=
  decodeTableWord 64 0x1 = some .powmod ∧ decodeTableWord 64 0x2 = some .bitrev ∧
  decodeTableWord 64 0x3 = some .nttCt ∧ decodeTableWord 64 0x13 = some .nttGs ∧
  decodeTableWord 64 0x4 = some .intt ∧ decodeTableWord 64 0x0 = none ∧ decodeTableWord 64 0x14 = none

/-- R77: a word is a command exactly when it matches the command's row, and every command's word is that row's. -/
def Obligations.DecodeAndEncodeAgree : Prop :=
  (∀ i : Instr, decode (encode i) = .ok i ∧ i.wellFormed = true) ∧
  ∀ (c : Word) (i : Instr), decode c = .ok i ↔
    c &&& 0xFFFFFFFFFFFFFFFF = match i with
      | .powmod => 0x1 | .bitrev => 0x2 | .nttCt => 0x3 | .nttGs => 0x13 | .intt => 0x4

/-- R70, R72, R75: a word decodes exactly when its fields pass the checks, and joining the fields gives the word back. -/
def Obligations.LegalFieldsDecode : Prop :=
  ∀ c : Word, joinFields (splitWord c) = c ∧ ((splitWord c).wellFormed = true ↔ ∃ i, decode c = .ok i)

/-- R75: a word with a reserved OP, with VAR = 1 for another OP than 3, or with a bit set in 63:5, ends at once with
ILLEGAL_CMD, and changes nothing but STATUS, ERRINFO and the pending bit. -/
def Obligations.ReservedWordsEndWithIllegalCmd : Prop :=
  ∀ s : State, s.engineTurn →
    (s.cmd.toNat % 16 = 0 ∨ 5 ≤ s.cmd.toNat % 16 ∨ (s.cmd.getLsbD 4 = true ∧ s.cmd.toNat % 16 ≠ 3) ∨ 32 ≤ s.cmd.toNat) →
    step s = .next { s with status := 0x106, errinfo := 0, pending := false }

/-- R188: when the engine moves and CMD holds a command, the step is that command's meaning and adds nothing around it.
The model's choices: a STATUS access of a width other than 64 bits does not step before the engine (log 11, DEDUCED), and
the state in which a given word runs is the one acceptance (R183) leaves, with no host step placed before the engine step
(log 10). -/
def Obligations.StepRunsTheDecodedCommand : Prop :=
  (∀ (s : State) (i : Instr), decode s.cmd = .ok i →
    s.engineTurn ∨ (s.pending = true ∧ ∃ w rest, w ≠ 64 ∧ s.host = .transaction (.rrd w 0x08) :: rest) →
    step s = exec i s) ∧
  (∀ (s : State) (w : Nat), w < 2 ^ 64 → s.withFetchWord 64 w =
    { s with cmd := wordOf w, status := 0x1, errinfo := 0, pending := true, delay := 0 }) ∧
  ∀ (s : State) (i : Instr),
    step (s.withFetchWord 64 (encode i).toNat) = exec i (s.withFetchWord 64 (encode i).toNat)

/-! ## Arithmetic -/

/-- R100, R101, R102: the reduction unit on field elements, with the rules' corner cases. -/
def Obligations.ReductionUnitIsExact : Prop :=
  (∀ a b, a < Config.modulus → b < Config.modulus →
    addM a b = (a + b) % Config.modulus ∧ addM a b < Config.modulus ∧
    subM a b = (a + Config.modulus - b) % Config.modulus ∧ subM a b < Config.modulus ∧
    mulM a b = a * b % Config.modulus ∧ mulM a b < Config.modulus ∧
    a + b < 2 * Config.modulus - 1 ∧ 2 * Config.modulus - 1 < 2 ^ 31 ∧
    1 ≤ a + Config.modulus - b ∧ a + Config.modulus - b ≤ 2 * Config.modulus - 1 ∧
    a * b ≤ 996491788296388609 ∧ 996491788296388609 < 2 ^ 60) ∧
  addM 998244352 998244352 = 998244351 ∧ addM 0 0 = 0 ∧ addM 998244352 1 = 0 ∧
  subM 0 1 = 998244352 ∧ subM 5 5 = 0 ∧ subM 0 998244352 = 1 ∧
  mulM 998244352 998244352 = 1 ∧ ∀ x, x < Config.modulus → mulM 0 x = 0 ∧ mulM 1 x = x

/-- R104 and R206: POWMOD writes `b^e mod m` to RESULT, exactly, for all 64-bit operands; with modulus 0 it ends with
MODULUS_ZERO and RESULT is unchanged. Its word is 0x1. -/
def Obligations.PowmodComputesThePower : Prop :=
  decode 0x1 = .ok .powmod ∧ ∀ s : State,
    (s.arg2 = 0 → exec .powmod s = .next { s with status := 0x506, errinfo := 0, pending := false }) ∧
    (s.arg2 ≠ 0 → exec .powmod s = .next { s with
      result := wordOf (s.arg0.toNat ^ s.arg1.toNat % s.arg2.toNat), status := 0x2, pending := false })

/-- R108: the laws of powmod, through the command: for every state whose operands are as the law says. -/
def Obligations.PowmodLaws : Prop :=
  (∀ s : State, s.arg1 = 0 → 2 ≤ s.arg2.toNat →
    exec .powmod s = .next { s with result := 1, status := 0x2, pending := false }) ∧
  (∀ s : State, s.arg1 = 1 → 1 ≤ s.arg2.toNat →
    exec .powmod s = .next { s with result := s.arg0 % s.arg2, status := 0x2, pending := false }) ∧
  ∀ s : State, s.arg0 = 3 → s.arg1 = 998244352 → s.arg2 = 998244353 →
    exec .powmod s = .next { s with result := 1, status := 0x2, pending := false }

/-- R105: the Fermat inverse is the inverse of every nonzero residue, the only one in range, and 0 for a zero residue. -/
def Obligations.FermatInverse : Prop :=
  inverse 3 = 332748118 ∧ inverse 2 = 499122177 ∧ inverse 4 = 748683265 ∧ inverse 8 = 873463809 ∧ ∀ x : Nat,
    (x % Config.modulus ≠ 0 → 1 ≤ inverse x ∧ inverse x < Config.modulus ∧
      mulM (x % Config.modulus) (inverse x) = 1 ∧
      ∀ y, y < Config.modulus → mulM (x % Config.modulus) y = 1 → y = inverse x) ∧
    (x % Config.modulus = 0 → inverse x = 0)

/-! ## The bit-reversal permutation -/

/-- R130: the table has `n` entries below `n`, meets the recurrence exactly, and each entry reverses the index's low `h`
bits. -/
def Obligations.RevtableReversesBits : Prop :=
  ∀ h n : Nat, n = 2 ^ h →
    (revtable n).length = n ∧ (revtable n).getD 0 0 = 0 ∧
    (∀ i, 1 ≤ i → i < n → (revtable n).getD i 0 =
      ((revtable n).getD (i >>> 1) 0 >>> 1) ||| (if i % 2 = 1 then n / 2 else 0)) ∧
    ∀ i, i < n → (revtable n).getD i 0 < n ∧ (revtable n).getD i 0 = reverseBits h i

/-- R131, R132: BITREV on a legal sequence whose moving words are written completes; the word at `p + i` is the one that
was at `p + rev[i]`, and no other word, register or flag changes but STATUS and the pending bit. -/
def Obligations.BitrevPermutesTheSequence : Prop :=
  ∀ (s : State) (h : Nat), s.len.toNat = 2 ^ h → s.base.toNat + 2 ^ h ≤ s.dmemsz.toNat →
    (∀ i, i < 2 ^ h → (revtable (2 ^ h)).getD i 0 ≠ i → ∃ v, s.dmem.read? (s.base.toNat + i) = some v) →
    ∃ m : Memory, exec .bitrev s = .next { s with dmem := m, status := 0x2, pending := false } ∧
      (∀ i, i < 2 ^ h → m.read? (s.base.toNat + i) = s.dmem.read? (s.base.toNat + (revtable (2 ^ h)).getD i 0)) ∧
      ∀ k, ¬(s.base.toNat ≤ k ∧ k < s.base.toNat + 2 ^ h) → m.read? k = s.dmem.read? k

/-- R132, R211: on a legal sequence, BITREV stops with the model fault exactly when a word that moves
is unwritten. That the run stops there is the model's form of the mark (log 3). -/
def Obligations.BitrevFaultsExactlyOnUnwrittenMoves : Prop :=
  ∀ (s : State) (h : Nat), s.len.toNat = 2 ^ h → s.base.toNat + 2 ^ h ≤ s.dmemsz.toNat →
    ((∃ f, exec .bitrev s = .fault f) ↔
      ∃ i, i < 2 ^ h ∧ (revtable (2 ^ h)).getD i 0 ≠ i ∧ s.dmem.read? (s.base.toNat + i) = none)

/-- R133: the table is an involution, and BITREV twice gives the sequence, and in fact the whole state but STATUS and the
pending bit, back. -/
def Obligations.BitrevTwiceRestores : Prop :=
  (∀ h i : Nat, i < 2 ^ h → (revtable (2 ^ h)).getD ((revtable (2 ^ h)).getD i 0) 0 = i) ∧
  ∀ (s : State) (h : Nat), s.len.toNat = 2 ^ h → s.base.toNat + 2 ^ h ≤ s.dmemsz.toNat → s.dmem.wf →
    s.dmem.within s.dmemsz.toNat →
    (∀ i, i < 2 ^ h → (revtable (2 ^ h)).getD i 0 ≠ i → ∃ v, s.dmem.read? (s.base.toNat + i) = some v) →
    ∃ t, exec .bitrev s = .next t ∧ exec .bitrev t = .next { s with status := 0x2, pending := false }

/-! ## The transforms -/

/-- R140, R145: NTT.CT on a legal sequence of field elements completes, for every root, with the values of the in-place
loops of R140; no word outside the sequence, no other register and no other flag changes. -/
def Obligations.NttCtRunsTheLoops : Prop :=
  ∀ (s : State) (h : Nat) (a : List Nat) (D : Nat → Nat), h ≤ 23 → s.len.toNat = 2 ^ h →
    s.base.toNat + 2 ^ h ≤ s.dmemsz.toNat → a.length = 2 ^ h → s.dmem.holds s.base.toNat a →
    (∀ i, i < 2 ^ h → D (s.base.toNat + i) = a.getD i 0) →
    ∃ m : Memory, exec .nttCt s = .next { s with dmem := m, status := 0x2, pending := false } ∧
      (∀ i, i < 2 ^ h → m.read? (s.base.toNat + i) =
        some (wordOf (loopNttCt s.base.toNat (2 ^ h) s.arg0.toNat D (s.base.toNat + i)))) ∧
      ∀ k, ¬(s.base.toNat ≤ k ∧ k < s.base.toNat + 2 ^ h) → m.read? k = s.dmem.read? k

/-- R143, R147: the same of NTT.GS and the loops of R143. -/
def Obligations.NttGsRunsTheLoops : Prop :=
  ∀ (s : State) (h : Nat) (a : List Nat) (D : Nat → Nat), h ≤ 23 → s.len.toNat = 2 ^ h →
    s.base.toNat + 2 ^ h ≤ s.dmemsz.toNat → a.length = 2 ^ h → s.dmem.holds s.base.toNat a →
    (∀ i, i < 2 ^ h → D (s.base.toNat + i) = a.getD i 0) →
    ∃ m : Memory, exec .nttGs s = .next { s with dmem := m, status := 0x2, pending := false } ∧
      (∀ i, i < 2 ^ h → m.read? (s.base.toNat + i) =
        some (wordOf (loopNttGs s.base.toNat (2 ^ h) s.arg0.toNat D (s.base.toNat + i)))) ∧
      ∀ k, ¬(s.base.toNat ≤ k ∧ k < s.base.toNat + 2 ^ h) → m.read? k = s.dmem.read? k

/-- R170, R171: the same of INTT and the loops of R170. -/
def Obligations.InttRunsTheLoops : Prop :=
  ∀ (s : State) (h : Nat) (a : List Nat) (D : Nat → Nat), h ≤ 23 → s.len.toNat = 2 ^ h →
    s.base.toNat + 2 ^ h ≤ s.dmemsz.toNat → a.length = 2 ^ h → s.dmem.holds s.base.toNat a →
    (∀ i, i < 2 ^ h → D (s.base.toNat + i) = a.getD i 0) →
    ∃ m : Memory, exec .intt s = .next { s with dmem := m, status := 0x2, pending := false } ∧
      (∀ i, i < 2 ^ h → m.read? (s.base.toNat + i) =
        some (wordOf (loopIntt s.base.toNat (2 ^ h) s.arg0.toNat D (s.base.toNat + i)))) ∧
      ∀ k, ¬(s.base.toNat ≤ k ∧ k < s.base.toNat + 2 ^ h) → m.read? k = s.dmem.read? k

/-- R148: with a root that is a quadratic non-residue, NTT.CT maps the sequence to its natural-order NTT; 3 is such a
root. -/
def Obligations.NttCtComputesTheNtt : Prop :=
  powmod 3 ((Config.modulus - 1) / 2) Config.modulus = Config.modulus - 1 ∧
  ∀ (s : State) (h : Nat) (a : List Nat) (ω : Nat), h ≤ 23 → s.len.toNat = 2 ^ h →
    s.base.toNat + 2 ^ h ≤ s.dmemsz.toNat → a.length = 2 ^ h → s.dmem.holds s.base.toNat a →
    powmod s.arg0.toNat ((Config.modulus - 1) / 2) Config.modulus = Config.modulus - 1 →
    ω = powmod s.arg0.toNat ((Config.modulus - 1) / 2 ^ h) Config.modulus →
    ∃ m : Memory, exec .nttCt s = .next { s with dmem := m, status := 0x2, pending := false } ∧
      ∀ k, k < 2 ^ h → m.read? (s.base.toNat + k) =
        some (wordOf ((∑ j ∈ Finset.range (2 ^ h), a.getD j 0 * ω ^ (j * k)) % Config.modulus))

/-- R149: with such a root, NTT.GS leaves what BITREV, NTT.CT and BITREV leave one after the other. -/
def Obligations.NttGsIsBitrevNttBitrev : Prop :=
  ∀ (s : State) (h : Nat) (a : List Nat), h ≤ 23 → s.len.toNat = 2 ^ h →
    s.base.toNat + 2 ^ h ≤ s.dmemsz.toNat → a.length = 2 ^ h → s.dmem.holds s.base.toNat a → s.dmem.wf →
    s.dmem.within s.dmemsz.toNat →
    powmod s.arg0.toNat ((Config.modulus - 1) / 2) Config.modulus = Config.modulus - 1 →
    ∃ t u v, exec .bitrev s = .next t ∧ exec .nttCt t = .next u ∧ exec .bitrev u = .next v ∧
      exec .nttGs s = .next v

/-- R172: with such a root, INTT maps the sequence to its inverse NTT, `w'` being the inverse of the forward root. -/
def Obligations.InttComputesTheInverseNtt : Prop :=
  ∀ (s : State) (h : Nat) (a : List Nat) (w' nInv : Nat), h ≤ 23 → s.len.toNat = 2 ^ h →
    s.base.toNat + 2 ^ h ≤ s.dmemsz.toNat → a.length = 2 ^ h → s.dmem.holds s.base.toNat a →
    powmod s.arg0.toNat ((Config.modulus - 1) / 2) Config.modulus = Config.modulus - 1 →
    powmod s.arg0.toNat ((Config.modulus - 1) / 2 ^ h) Config.modulus * w' % Config.modulus = 1 →
    2 ^ h * nInv % Config.modulus = 1 →
    ∃ m : Memory, exec .intt s = .next { s with dmem := m, status := 0x2, pending := false } ∧
      ∀ j, j < 2 ^ h → m.read? (s.base.toNat + j) =
        some (wordOf (nInv * (∑ k ∈ Finset.range (2 ^ h), a.getD k 0 * w' ^ (j * k)) % Config.modulus))

/-- R174, items 1 and 2: INTT after NTT.CT with the same start, length and root restores the sequence exactly, for root 3
and for every root that is a quadratic non-residue. Nothing but STATUS and the pending bit is left changed. -/
def Obligations.RoundTripRestores : Prop :=
  ∀ (s : State) (h : Nat) (a : List Nat), h ≤ 23 → s.len.toNat = 2 ^ h →
    s.base.toNat + 2 ^ h ≤ s.dmemsz.toNat → a.length = 2 ^ h → s.dmem.holds s.base.toNat a → s.dmem.wf →
    s.dmem.within s.dmemsz.toNat →
    (s.arg0 = 3 ∨ powmod s.arg0.toNat ((Config.modulus - 1) / 2) Config.modulus = Config.modulus - 1) →
    ∃ t, exec .nttCt s = .next t ∧ exec .intt t = .next { s with status := 0x2, pending := false }

/-- R173 and R174, items 4 and 5: the rules' examples of round trips that do not restore [1..8]: root 0, and NTT.GS. -/
def Obligations.RoundTripExamplesThatFail : Prop :=
  let s0 : State := { State.reset with
    dmemsz := 64, len := 8, dmem := [(0, 1), (1, 2), (2, 3), (3, 4), (4, 5), (5, 6), (6, 7), (7, 8)] }
  (∃ t u, exec .nttCt s0 = .next t ∧ exec .intt t = .next u ∧
    u.dmem = [(0, 1), (1, 5), (2, 5), (3, 5), (4, 5), (5, 5), (6, 5), (7, 5)]) ∧
  ∃ t u, exec .nttGs { s0 with arg0 := 3 } = .next t ∧ exec .intt t = .next u ∧
    u.dmem = [(0, 1), (1, 719629667), (2, 98039586), (3, 105953433), (4, 654201668), (5, 378295388), (6, 856912918),
      (7, 181700434)]

/-- R106: every word a transform command writes is a field element, whatever the root. -/
def Obligations.TransformOutputsAreFieldElements : Prop :=
  ∀ (i : Instr) (s t : State), i = .nttCt ∨ i = .nttGs ∨ i = .intt → exec i s = .next t → t.status = 0x2 →
    ∀ k, s.base.toNat ≤ k → k < s.base.toNat + s.len.toNat →
      ∃ v, t.dmem.read? k = some v ∧ v.toNat < Config.modulus

/-- R145, R147, R171 corner cases: a transform of one word changes no word; NTT.CT and NTT.GS of two words are the one
butterfly, and INTT is that butterfly times the inverse of 2, for every root. -/
def Obligations.ShortTransforms : Prop :=
  (∀ (i : Instr) (s : State) (x : Nat), i = .nttCt ∨ i = .nttGs ∨ i = .intt → s.len = 1 →
    s.base.toNat + 1 ≤ s.dmemsz.toNat → s.dmem.holds s.base.toNat [x] →
    ∃ m : Memory, exec i s = .next { s with dmem := m, status := 0x2, pending := false } ∧
      ∀ k, m.read? k = s.dmem.read? k) ∧
  ∀ (s : State) (x y : Nat), s.len = 2 → s.base.toNat + 2 ≤ s.dmemsz.toNat → s.dmem.holds s.base.toNat [x, y] →
    (∀ i : Instr, i = .nttCt ∨ i = .nttGs →
      ∃ m : Memory, exec i s = .next { s with dmem := m, status := 0x2, pending := false } ∧
        m.holds s.base.toNat [addM x y, subM x y]) ∧
    ∃ m : Memory, exec .intt s = .next { s with dmem := m, status := 0x2, pending := false } ∧
      m.holds s.base.toNat [mulM (addM x y) 499122177, mulM (subM x y) 499122177]

/-! ## Command errors -/

/-- R203: BAD_LENGTH is raised exactly when LEN is no power of two, or for a transform one above 2^23. -/
def Obligations.BadLengthExactly : Prop :=
  (∀ (i : Instr) (s : State), i = .nttCt ∨ i = .nttGs ∨ i = .intt →
    ((¬∃ h ≤ 23, s.len.toNat = 2 ^ h) →
      exec i s = .next { s with status := 0x206, errinfo := 0, pending := false }) ∧
    ((∃ h ≤ 23, s.len.toNat = 2 ^ h) → ∀ t, exec i s = .next t → t.status ≠ 0x206)) ∧
  ∀ s : State,
    ((¬∃ h, s.len.toNat = 2 ^ h) →
      exec .bitrev s = .next { s with status := 0x206, errinfo := 0, pending := false }) ∧
    ((∃ h, s.len.toNat = 2 ^ h) → ∀ t, exec .bitrev s = .next t → t.status ≠ 0x206)

/-- R204: with a legal length, RANGE is raised exactly when `BASE + LEN`, exact, is above DMEM_WORDS. -/
def Obligations.RangeExactly : Prop :=
  ∀ (i : Instr) (s : State) (h : Nat), i ≠ .powmod → s.len.toNat = 2 ^ h → (i ≠ .bitrev → h ≤ 23) →
    (s.dmemsz.toNat < s.base.toNat + s.len.toNat →
      exec i s = .next { s with status := 0x306, errinfo := 0, pending := false }) ∧
    (s.base.toNat + s.len.toNat ≤ s.dmemsz.toNat → ∀ t, exec i s = .next t → t.status ≠ 0x306)

/-- R205: with a legal length in range, the first word in ascending order that is not a field element ends the command
with UNREDUCED and its DMEM index, or, unwritten, with the model fault (a stop: log 3); with no such word the command
succeeds. -/
def Obligations.ReducedInputScan : Prop :=
  ∀ (i : Instr) (s : State) (h : Nat), i = .nttCt ∨ i = .nttGs ∨ i = .intt → h ≤ 23 → s.len.toNat = 2 ^ h →
    s.base.toNat + 2 ^ h ≤ s.dmemsz.toNat →
    (∀ j, j < 2 ^ h →
      (∀ k, k < j → ∃ v, s.dmem.read? (s.base.toNat + k) = some v ∧ v.toNat < Config.modulus) →
      (∀ v, s.dmem.read? (s.base.toNat + j) = some v → Config.modulus ≤ v.toNat →
        exec i s = .next { s with status := 0x406, errinfo := wordOf (s.base.toNat + j), pending := false }) ∧
      (s.dmem.read? (s.base.toNat + j) = none → exec i s = .fault (.unwrittenRead (s.base.toNat + j)))) ∧
    ((∀ k, k < 2 ^ h → ∃ v, s.dmem.read? (s.base.toNat + k) = some v ∧ v.toNat < Config.modulus) →
      ∃ m : Memory, exec i s = .next { s with dmem := m, status := 0x2, pending := false })

/-- R207: a command reports the first error that applies, in the rule's order. A bus error is never a command's: no engine
step sets the fault mark or answers a transaction. A model fault is a stop here: the model's form of it (log 3). -/
def Obligations.FirstErrorWins : Prop :=
  ∀ s : State, s.engineTurn →
    (∀ t, step s = .next t → t.faulted = s.faulted ∧ t.responses = s.responses ∧ t.host = s.host) ∧
    ((∀ i, decode s.cmd ≠ .ok i) → ∃ t, step s = .next t ∧ t.status = 0x106) ∧
    (decode s.cmd = .ok .powmod → s.arg2 = 0 → ∃ t, step s = .next t ∧ t.status = 0x506) ∧
    (decode s.cmd = .ok .bitrev →
      ((¬∃ h, s.len.toNat = 2 ^ h) → ∃ t, step s = .next t ∧ t.status = 0x206) ∧
      ((∃ h, s.len.toNat = 2 ^ h) → s.dmemsz.toNat < s.base.toNat + s.len.toNat →
        ∃ t, step s = .next t ∧ t.status = 0x306)) ∧
    ∀ i, i = .nttCt ∨ i = .nttGs ∨ i = .intt → decode s.cmd = .ok i →
      ((¬∃ h ≤ 23, s.len.toNat = 2 ^ h) → ∃ t, step s = .next t ∧ t.status = 0x206) ∧
      ((∃ h ≤ 23, s.len.toNat = 2 ^ h) →
        (s.dmemsz.toNat < s.base.toNat + s.len.toNat → ∃ t, step s = .next t ∧ t.status = 0x306) ∧
        (s.base.toNat + s.len.toNat ≤ s.dmemsz.toNat → ∀ j, j < s.len.toNat →
          (∀ k, k < j → ∃ v, s.dmem.read? (s.base.toNat + k) = some v ∧ v.toNat < Config.modulus) →
          ((∃ v, s.dmem.read? (s.base.toNat + j) = some v ∧ Config.modulus ≤ v.toNat) →
            ∃ t, step s = .next t ∧ t.status = 0x406 ∧ t.errinfo.toNat = s.base.toNat + j) ∧
          (s.dmem.read? (s.base.toNat + j) = none → ∃ f, step s = .fault f)))

/-- R201: a command that ends with an error changes STATUS, ERRINFO and the pending bit and nothing else; the error is one
of the table's, and ERRINFO is 0 but for UNREDUCED (R202). -/
def Obligations.ErrorsArePrecise : Prop :=
  ∀ (i : Instr) (s t : State), exec i s = .next t → t.status ≠ 0x2 →
    t = { s with status := t.status, errinfo := t.errinfo, pending := false } ∧
    (t.status = 0x206 ∨ t.status = 0x306 ∨ t.status = 0x406 ∨ t.status = 0x506) ∧
    (t.status ≠ 0x406 → t.errinfo = 0)

/-- R30, R51, R74: the frame of every command. POWMOD changes RESULT alone beside STATUS, ERRINFO and the pending bit, and
no word of DMEM; the others change no register but STATUS and ERRINFO, and no word outside their sequence. -/
def Obligations.CommandFrame : Prop :=
  (∀ s t : State, exec .powmod s = .next t → t =
    { s with result := t.result, status := t.status, errinfo := t.errinfo, pending := false }) ∧
  ∀ (i : Instr) (s t : State), i ≠ .powmod → exec i s = .next t →
    t = { s with dmem := t.dmem, status := t.status, errinfo := t.errinfo, pending := false } ∧
    ∀ k, ¬(s.base.toNat ≤ k ∧ k < s.base.toNat + s.len.toNat) → t.dmem.read? k = s.dmem.read? k

/-! ## The host port -/

/-- R181: while a command is pending the only transaction that can step is the STATUS read. Every other one is held: the
step is the engine's, so the transaction stays where it is and nothing is answered, and the hold is over after that one
step. The model's choice (log 6, DESIGN CHOICE): a STATUS read steps while the drawn `delay` is not 0, and once it is 0, or
when nothing is to come, the step is the engine's. -/
def Obligations.HoldUntilTheEngineStep : Prop :=
  (∀ (s : State) (t : Transaction) (rest : List HostEvent), s.pending = true →
    s.host = .transaction t :: rest → (∀ w, t ≠ .rrd w 0x08) →
    step s = engineStep s ∧
    ∀ s', step s = .next s' → s'.pending = false ∧ s'.host = s.host ∧ s'.responses = s.responses) ∧
  (∀ (s : State) (rest : List HostEvent), s.pending = true → s.host = .transaction (.rrd 64 0x08) :: rest →
    s.delay ≠ 0 → ∃ s', step s = .next s' ∧ s'.pending = true ∧ s'.host = rest) ∧
  ∀ s : State, s.pending = true → s.delay = 0 ∨ s.host = [] → step s = engineStep s

/-- R181, R189, R190: a pending command ends. Whatever the drawn delay, at most that many host steps come before a step
that leaves no command pending (the engine's, or a reset) or stops the run with the model fault. -/
def Obligations.PendingCommandEnds : Prop :=
  ∀ s : State, s.pending = true →
    ∃ k, k ≤ s.delay + 1 ∧
      ((∃ t, runSteps k s = .next t ∧ t.pending = false) ∨ ∃ f, runSteps k s = .fault f)

/-- R183: a CMD write that is not held accepts the command, whatever the word; while a command is pending it is held. How
long the completion then takes is the free value of R190. -/
def Obligations.CommandAcceptance : Prop :=
  (∀ (s : State) (v : Word) (rest : List HostEvent), s.hostTurn (.transaction (.rwr 64 0x00 v)) rest →
    ∃ delay draws, step s = .next { s with
      cmd := v, status := 0x1, errinfo := 0, pending := true, delay := delay, draws := draws,
      host := rest, responses := s.responses ++ [.written] }) ∧
  ∀ (s : State) (v : Word) (rest : List HostEvent), s.pending = true →
    s.host = .transaction (.rwr 64 0x00 v) :: rest → step s = engineStep s

/-- R184: a register read answers with the register at the offset, constants with their values, and changes nothing
else; at another offset it is a bus error; while a command is pending every read but STATUS is held. The model's choice
(log 6, DESIGN CHOICE): a STATUS read of a pending command steps while the drawn `delay` is not 0 and takes one off it; it
answers 0x1. -/
def Obligations.RegisterReads : Prop :=
  (∀ (s : State) (off : Nat) (rest : List HostEvent), s.hostTurn (.transaction (.rrd 64 off)) rest →
    (∀ v, (off, v) ∈ [(0x00, s.cmd), (0x08, s.status), (0x10, s.base), (0x18, s.len), (0x20, s.arg0), (0x28, s.arg1),
        (0x30, s.arg2), (0x38, s.result), (0x40, s.errinfo), (0x48, 998244353), (0x50, 3), (0x58, s.dmemsz)] →
      step s = .next { s with host := rest, responses := s.responses ++ [.value v] }) ∧
    (¬(off % 8 = 0 ∧ off ≤ 0x58) → step s = .next { s with
      faulted := true, host := rest, responses := s.responses ++ [.busError .offset] })) ∧
  ∀ (s : State) (off : Nat) (rest : List HostEvent), s.pending = true →
    s.host = .transaction (.rrd 64 off) :: rest →
    (off ≠ 0x08 → step s = engineStep s) ∧
    (off = 0x08 → s.Inv → s.delay ≠ 0 →
      step s = .next { s with delay := s.delay - 1, host := rest, responses := s.responses ++ [.value 0x1] })

/-- R185: a write of BASE, LEN, ARG0, ARG1 or ARG2 stores the value as written, whatever it is, and changes nothing else;
a write of CMD accepts a command; a write elsewhere is a bus error; while a command is pending every write is held. -/
def Obligations.RegisterWrites : Prop :=
  (∀ (s : State) (off : Nat) (v : Word) (rest : List HostEvent), s.hostTurn (.transaction (.rwr 64 off v)) rest →
    (off = 0x00 → ∃ delay draws, step s = .next { s with
      cmd := v, status := 0x1, errinfo := 0, pending := true, delay := delay, draws := draws,
      host := rest, responses := s.responses ++ [.written] }) ∧
    (off = 0x10 → step s = .next { s with base := v, host := rest, responses := s.responses ++ [.written] }) ∧
    (off = 0x18 → step s = .next { s with len := v, host := rest, responses := s.responses ++ [.written] }) ∧
    (off = 0x20 → step s = .next { s with arg0 := v, host := rest, responses := s.responses ++ [.written] }) ∧
    (off = 0x28 → step s = .next { s with arg1 := v, host := rest, responses := s.responses ++ [.written] }) ∧
    (off = 0x30 → step s = .next { s with arg2 := v, host := rest, responses := s.responses ++ [.written] }) ∧
    (off ∉ [0x00, 0x10, 0x18, 0x20, 0x28, 0x30] → ∃ k, step s = .next { s with
      faulted := true, host := rest, responses := s.responses ++ [.busError k] })) ∧
  ∀ (s : State) (off : Nat) (v : Word) (rest : List HostEvent), s.pending = true →
    s.host = .transaction (.rwr 64 off v) :: rest → step s = engineStep s

/-- R186: a DMEM read answers with the word and changes nothing else; of an unwritten word it is a model fault, a stop
(the model's form: log 3); outside DMEM it is a bus error; while a command is pending it is held. -/
def Obligations.DmemReads : Prop :=
  (∀ (s : State) (i : Nat) (rest : List HostEvent), s.hostTurn (.transaction (.mrd 64 i)) rest →
    (i < s.dmemsz.toNat →
      (∀ v, s.dmem.read? i = some v →
        step s = .next { s with host := rest, responses := s.responses ++ [.value v] }) ∧
      (s.dmem.read? i = none → step s = .fault (.unwrittenRead i))) ∧
    (s.dmemsz.toNat ≤ i → step s = .next { s with
      faulted := true, host := rest, responses := s.responses ++ [.busError .dmemIndex] })) ∧
  ∀ (s : State) (i : Nat) (rest : List HostEvent), s.pending = true →
    s.host = .transaction (.mrd 64 i) :: rest → step s = engineStep s

/-- R187: a DMEM write makes the word written with the value, whatever it is, and changes no other word, no register and
no flag; outside DMEM it is a bus error; while a command is pending it is held. -/
def Obligations.DmemWrites : Prop :=
  (∀ (s : State) (i : Nat) (v : Word) (rest : List HostEvent), s.hostTurn (.transaction (.mwr 64 i v)) rest →
    (i < s.dmemsz.toNat → ∃ m : Memory,
      step s = .next { s with dmem := m, host := rest, responses := s.responses ++ [.written] } ∧
      m.read? i = some v ∧ ∀ k, k ≠ i → m.read? k = s.dmem.read? k) ∧
    (s.dmemsz.toNat ≤ i → step s = .next { s with
      faulted := true, host := rest, responses := s.responses ++ [.busError .dmemIndex] })) ∧
  ∀ (s : State) (i : Nat) (v : Word) (rest : List HostEvent), s.pending = true →
    s.host = .transaction (.mwr 64 i v) :: rest → step s = engineStep s

/-- R182, R208, R209: a malformed transaction is refused with the bus error of the first check that fails: width, then
location, then access. No register, DMEM word or pending state changes; the host gets the error response, and the fault
mark is set. -/
def Obligations.MalformedTransactionsAreBusErrors : Prop :=
  ∀ (s : State) (t : Transaction) (rest : List HostEvent), s.hostTurn (.transaction t) rest →
    let refused (k : BusErrorKind) :=
      step s = .next { s with faulted := true, host := rest, responses := s.responses ++ [.busError k] }
    (∀ w off, t = .rrd w off →
      (w ≠ 64 → refused .width) ∧ (w = 64 → ¬(off % 8 = 0 ∧ off ≤ 0x58) → refused .offset)) ∧
    (∀ w off v, t = .rwr w off v →
      (w ≠ 64 → refused .width) ∧ (w = 64 → ¬(off % 8 = 0 ∧ off ≤ 0x58) → refused .offset) ∧
      (w = 64 → off ∈ [0x08, 0x38, 0x40, 0x48, 0x50, 0x58] → refused .readOnly)) ∧
    (∀ w i, t = .mrd w i → (w ≠ 64 → refused .width) ∧ (w = 64 → s.dmemsz.toNat ≤ i → refused .dmemIndex)) ∧
    ∀ w i v, t = .mwr w i v → (w ≠ 64 → refused .width) ∧ (w = 64 → s.dmemsz.toNat ≤ i → refused .dmemIndex)

/-- R190: a STATUS read while a command is pending returns 0x1, and the command stays pending; after completion it returns
0x2 or the error status. The model's choice (log 6, DESIGN CHOICE): the read steps while the drawn `delay` is not 0, and
takes one off it. -/
def Obligations.PollReadsBusyThenTheOutcome : Prop :=
  (∀ (s : State) (rest : List HostEvent), s.Inv → s.pending = true → s.delay ≠ 0 →
    s.host = .transaction (.rrd 64 0x08) :: rest →
    step s = .next { s with delay := s.delay - 1, host := rest, responses := s.responses ++ [.value 0x1] }) ∧
  ∀ s t : State, s.engineTurn → step s = .next t → t.pending = false ∧
    (t.status = 0x2 ∨ ∃ code, 1 ≤ code ∧ code ≤ 5 ∧ t.status = wordOf (code * 256 + 6))

/-! ## Reset -/

/-- R42: what reset leaves. -/
def Obligations.ResetValues : Prop :=
  let s := State.reset
  s.cmd = 0 ∧ s.status = 0 ∧ s.base = 0 ∧ s.len = 0 ∧ s.arg0 = 0 ∧ s.arg1 = 0 ∧ s.arg2 = 0 ∧ s.result = 0 ∧
  s.errinfo = 0 ∧ s.readReg .modulus = 998244353 ∧ s.readReg .proot = 3 ∧ s.readReg .dmemsz = Config.dmemWords ∧
  s.pending = false ∧ ∀ i, s.dmem.read? i = none

/-- R230, R231: the reset event, in one step, also while a command is pending, which it drops, when the schedule lets it move
before the engine (log 9). The fault mark and the constants stay. What becomes of the model's own four fields is not part
of the claim (log 8). -/
def Obligations.ResetEvent : Prop :=
  ∀ (s : State) (rest : List HostEvent), s.host = .reset :: rest → (s.pending = true → s.delay ≠ 0) →
    ∃ host responses delay draws, step s = .next { s with
      cmd := 0, status := 0, base := 0, len := 0, arg0 := 0, arg1 := 0, arg2 := 0, result := 0, errinfo := 0,
      pending := false, dmem := [], host := host, responses := responses, delay := delay, draws := draws }

/-! ## Invariants and whole-machine rules -/

/-- The invariant holds right after reset. -/
def Obligations.ResetMeetsTheInvariant : Prop := State.reset.Inv

/-- Every step keeps the invariant, from every state that meets it. -/
def Obligations.StepKeepsTheInvariant : Prop := ∀ s t : State, s.Inv → step s = .next t → t.Inv

/-- R24: the invariants of STATUS, in every state that meets the machine's invariant. -/
def Obligations.StatusInvariants : Prop :=
  ∀ s : State, s.Inv →
    (statusBUSY s.status = true → statusDONE s.status = false ∧ statusERR s.status = false ∧ statusERRCODE s.status = 0) ∧
    (statusERR s.status = true → statusDONE s.status = true ∧
      1 ≤ (statusERRCODE s.status).toNat ∧ (statusERRCODE s.status).toNat ≤ 5) ∧
    (statusDONE s.status = true → statusERR s.status = false → statusERRCODE s.status = 0) ∧
    (statusBUSY s.status = false → statusDONE s.status = false → s.status = 0 ∧ s.cmd = 0 ∧ s.pending = false) ∧
    statusReservedZero s.status = true

/-- R30: a step that changes RESULT is a successful POWMOD, which writes the power, or the reset event. -/
def Obligations.OnlyPowmodWritesResult : Prop :=
  ∀ s t : State, step s = .next t → t.result ≠ s.result →
    (s.pending = true ∧ s.cmd = 0x1 ∧ s.arg2 ≠ 0 ∧ t.status = 0x2 ∧
      t.result = wordOf (s.arg0.toNat ^ s.arg1.toNat % s.arg2.toNat)) ∨
    ∃ rest, s.host = .reset :: rest ∧ t.result = 0

/-- R51, R58: a step that changes what a DMEM word reads as is a sequence command whose sequence holds the word, an MWR of
it, or the reset event. -/
def Obligations.OnlyTheseWriteDmem : Prop :=
  ∀ (s t : State) (k : Nat), step s = .next t → t.dmem.read? k ≠ s.dmem.read? k →
    (s.pending = true ∧ (s.cmd = 0x2 ∨ s.cmd = 0x3 ∨ s.cmd = 0x13 ∨ s.cmd = 0x4) ∧
      s.base.toNat ≤ k ∧ k < s.base.toNat + s.len.toNat ∧ s.base.toNat + s.len.toNat ≤ s.dmemsz.toNat) ∨
    (s.pending = false ∧ ∃ v rest, s.host = .transaction (.mwr 64 k v) :: rest ∧ t.dmem.read? k = some v) ∨
    ∃ rest, s.host = .reset :: rest ∧ t.dmem = []

/-- R22, R25 to R29, R37: while a command is pending no step but a reset changes CMD or an operand register. -/
def Obligations.PendingCommandKeepsItsOperands : Prop :=
  ∀ s t : State, s.pending = true → step s = .next t → (∀ rest, s.host ≠ .reset :: rest) →
    t.cmd = s.cmd ∧ t.base = s.base ∧ t.len = s.len ∧ t.arg0 = s.arg0 ∧ t.arg1 = s.arg1 ∧ t.arg2 = s.arg2

/-- R33, R208, R230: no step changes DMEMSZ, and no step, reset included, clears the fault mark; of the steps to a next
state only a bus error sets it. The model's form (log 3, DEDUCED): an unwritten read, which sets the mark too by R211, is a
fault here and has no next state. -/
def Obligations.ConstantsAndTheFaultMark : Prop :=
  ∀ s t : State, step s = .next t →
    t.dmemsz = s.dmemsz ∧ (s.faulted = true → t.faulted = true) ∧
    (s.faulted = false → t.faulted = true → s.pending = false ∧
      ∃ tr rest k, s.host = .transaction tr :: rest ∧ t.responses = s.responses ++ [.busError k])

/-- R211: the machine stops only at a read of an unwritten word, inside DMEM, and no step is refused. That it stops there is
the model's form of the mark (log 3). -/
def Obligations.OnlyUnwrittenReadsStop : Prop :=
  ∀ s : State, (∀ r, step s ≠ .refused r) ∧
    ∀ f, step s = .fault f → ∃ k, f = .unwrittenRead k ∧ k < s.dmemsz.toNat ∧ s.dmem.read? k = none

/-- R79: a bare mnemonic stands for the CMD write of its word. -/
def Obligations.MnemonicsAreCmdWrites : Prop :=
  ∀ k, expand k (.command .powmod) = [.rwr 64 0x00 0x1] ∧ expand k (.command .bitrev) = [.rwr 64 0x00 0x2] ∧
    expand k (.command .nttCt) = [.rwr 64 0x00 0x3] ∧ expand k (.command .nttGs) = [.rwr 64 0x00 0x13] ∧
    expand k (.command .intt) = [.rwr 64 0x00 0x4]
end

