-- ==== Sys2Proof/Laws/Memory.lean ====
section
/-! SUPPORT. The laws of DMEM: read after write, the canonical form, what a swap, a load and a store of a sequence do. -/

namespace Sys2Proof.Machine

/-! ## One word -/

@[simp] theorem Memory.read?_nil (i : Nat) : Memory.read? [] i = none := rfl

theorem Memory.read?_write (m : Memory) (i k : Nat) (v : Word) :
    (m.write i v).read? k = if i = k then some v else m.read? k := by
  induction m with
  | nil => rfl
  | cons c rest ih =>
    obtain ⟨j, w⟩ := c
    simp only [Memory.write]
    split
    · rfl
    · split
      · subst i; simp only [Memory.read?]; split <;> rfl
      · simp only [Memory.read?, ih]
        split
        · rw [if_neg (by omega)]
        · rfl

@[simp] theorem Memory.read?_write_same (m : Memory) (i : Nat) (v : Word) : (m.write i v).read? i = some v := by
  simp [Memory.read?_write]

theorem Memory.read?_write_other (m : Memory) {i k : Nat} (v : Word) (h : i ≠ k) :
    (m.write i v).read? k = m.read? k := by
  simp [Memory.read?_write, h]

theorem Memory.mem_write {m : Memory} {i : Nat} {v : Word} {c : Nat × Word} (h : c ∈ m.write i v) :
    c = (i, v) ∨ c ∈ m := by
  induction m with
  | nil => simpa [Memory.write] using h
  | cons d rest ih =>
    obtain ⟨j, w⟩ := d
    simp only [Memory.write] at h
    split at h
    · simpa using h
    · split at h
      · rcases List.mem_cons.1 h with h | h <;> simp [h]
      · rcases List.mem_cons.1 h with h | h
        · simp [h]
        · rcases ih h with h | h <;> simp [h]

theorem Memory.wf_cons {j : Nat} {w : Word} {rest : Memory} :
    Memory.wf ((j, w) :: rest) ↔ (∀ c ∈ rest, j < c.1) ∧ Memory.wf rest := by
  simp [Memory.wf, List.pairwise_cons]

/-- A write keeps the canonical form. -/
theorem Memory.write_wf {m : Memory} (h : m.wf) (i : Nat) (v : Word) : (m.write i v).wf := by
  induction m with
  | nil => simp [Memory.write, Memory.wf]
  | cons d rest ih =>
    obtain ⟨j, w⟩ := d
    obtain ⟨hj, hr⟩ := Memory.wf_cons.1 h
    simp only [Memory.write]
    split
    · refine Memory.wf_cons.2 ⟨fun c hc => ?_, h⟩
      rcases List.mem_cons.1 hc with rfl | hc
      · assumption
      · exact Nat.lt_trans ‹i < j› (hj c hc)
    · split
      · subst i; exact Memory.wf_cons.2 ⟨hj, hr⟩
      · refine Memory.wf_cons.2 ⟨fun c hc => ?_, ih hr⟩
        rcases Memory.mem_write hc with rfl | hc
        · omega
        · exact hj c hc

theorem Memory.write_within {m : Memory} {words i : Nat} (h : m.within words) (hi : i < words) (v : Word) :
    (m.write i v).within words := fun c hc => by
  rcases Memory.mem_write hc with rfl | hc
  · exact hi
  · exact h c hc

theorem Memory.mem_of_read? {m : Memory} {i : Nat} {v : Word} (h : m.read? i = some v) : (i, v) ∈ m := by
  induction m with
  | nil => simp at h
  | cons d rest ih =>
    obtain ⟨j, w⟩ := d
    simp only [Memory.read?] at h
    split at h
    · simp_all
    · simp [ih h]

theorem Memory.read?_of_mem {m : Memory} (h : m.wf) {i : Nat} {v : Word} (hm : (i, v) ∈ m) : m.read? i = some v := by
  induction m with
  | nil => simp at hm
  | cons d rest ih =>
    obtain ⟨j, w⟩ := d
    obtain ⟨hj, hr⟩ := Memory.wf_cons.1 h
    rcases List.mem_cons.1 hm with hm | hm
    · cases hm; simp [Memory.read?]
    · have := hj _ hm
      simp only [Memory.read?]
      rw [if_neg (by simp only at this; omega)]
      exact ih hr hm

/-- A written word lies inside DMEM. -/
theorem Memory.lt_of_read? {m : Memory} {words i : Nat} {v : Word} (h : m.within words) (hr : m.read? i = some v) :
    i < words := h _ (Memory.mem_of_read? hr)

/-- Two canonical memories that read alike are equal. -/
theorem Memory.ext_read? {m m' : Memory} (h : m.wf) (h' : m'.wf) (heq : ∀ i, m.read? i = m'.read? i) : m = m' := by
  have nodup : ∀ {x : Memory}, x.wf → x.Nodup := fun {x} hx =>
    List.Nodup.of_map Prod.fst (hx.imp (fun hab => Nat.ne_of_lt hab))
  have hp : m.Perm m' := (List.perm_ext_iff_of_nodup (nodup h) (nodup h')).2 fun c => by
    obtain ⟨i, v⟩ := c
    constructor
    · intro hc; exact Memory.mem_of_read? (by rw [← heq]; exact Memory.read?_of_mem h hc)
    · intro hc; exact Memory.mem_of_read? (by rw [heq]; exact Memory.read?_of_mem h' hc)
  have hs : ∀ {x : Memory}, x.wf → x.Pairwise (fun a b => a.1 < b.1) := fun {x} hx => List.pairwise_map.1 hx
  exact List.Perm.eq_of_pairwise (fun a b _ _ hab hba => absurd hab (Nat.lt_asymm hba)) (hs h) (hs h') hp

/-! ## Fetch and swap -/

theorem Memory.fetch_eq_ok {m : Memory} {i : Nat} {v : Word} : m.fetch i = .ok v ↔ m.read? i = some v := by
  unfold Memory.fetch; cases m.read? i <;> simp

theorem Memory.fetch_eq_error {m : Memory} {i : Nat} {f : Fault} :
    m.fetch i = .error f ↔ f = .unwrittenRead i ∧ m.read? i = none := by
  unfold Memory.fetch; cases m.read? i <;> simp [eq_comm]

theorem Memory.swap_eq_ok {m m' : Memory} {p q : Nat} (h : m.swap p q = .ok m') :
    ∃ x y, m.read? p = some x ∧ m.read? q = some y ∧ m' = (m.write p y).write q x := by
  unfold Memory.swap at h
  split at h
  · cases h
  · split at h
    · cases h
    · cases h; exact ⟨_, _, Memory.fetch_eq_ok.1 ‹_›, Memory.fetch_eq_ok.1 ‹_›, rfl⟩

theorem Memory.swap_of_written {m : Memory} {p q : Nat} {x y : Word} (hp : m.read? p = some x)
    (hq : m.read? q = some y) : m.swap p q = .ok ((m.write p y).write q x) := by
  simp [Memory.swap, Memory.fetch, hp, hq]

theorem Memory.swap_eq_error {m : Memory} {p q : Nat} {f : Fault} (h : m.swap p q = .error f) :
    ∃ i, (i = p ∨ i = q) ∧ f = .unwrittenRead i ∧ m.read? i = none := by
  unfold Memory.swap at h
  split at h
  · cases h; exact ⟨p, .inl rfl, Memory.fetch_eq_error.1 ‹_›⟩
  · split at h
    · cases h; exact ⟨q, .inr rfl, Memory.fetch_eq_error.1 ‹_›⟩
    · cases h

/-! ## Sequences -/

theorem Memory.loadSeq_eq_ok {m : Memory} {p n : Nat} {a : List Nat} (h : m.loadSeq p n = .ok a) :
    a.length = n ∧ ∀ (i : Nat) (hi : i < a.length), m.read? (p + i) = some (wordOf a[i]) ∧ a[i] < 2 ^ 64 := by
  induction n generalizing p a with
  | zero => cases h; simp
  | succ n ih =>
    unfold Memory.loadSeq at h
    split at h
    · cases h
    · split at h
      · cases h
      · cases h
        rename_i v hv _ vs hvs
        obtain ⟨hl, hr⟩ := ih hvs
        refine ⟨by simp [hl], fun i hi => ?_⟩
        cases i with
        | zero => simpa [wordOf] using ⟨Memory.fetch_eq_ok.1 hv, v.isLt⟩
        | succ i =>
          have := hr i (by simpa using hi)
          simpa [Nat.add_assoc, Nat.add_comm 1] using this

theorem Memory.loadSeq_of_written {m : Memory} {p n : Nat} (h : m.written p n) : ∃ a, m.loadSeq p n = .ok a := by
  induction n generalizing p with
  | zero => exact ⟨[], rfl⟩
  | succ n ih =>
    obtain ⟨v, hv⟩ := h p (by omega) (by omega)
    obtain ⟨a, ha⟩ := ih (p := p + 1) (fun i h1 h2 => h i (by omega) (by omega))
    exact ⟨v.toNat :: a, by simp [Memory.loadSeq, Memory.fetch_eq_ok.2 hv, ha]⟩

theorem Memory.loadSeq_eq_error {m : Memory} {p n : Nat} {f : Fault} (h : m.loadSeq p n = .error f) :
    ∃ i, p ≤ i ∧ i < p + n ∧ f = .unwrittenRead i ∧ m.read? i = none := by
  induction n generalizing p with
  | zero => cases h
  | succ n ih =>
    unfold Memory.loadSeq at h
    split at h
    · cases h; exact ⟨p, by omega, by omega, Memory.fetch_eq_error.1 ‹_›⟩
    · split at h
      · cases h
        obtain ⟨i, h1, h2, h3⟩ := ih ‹_›
        exact ⟨i, by omega, by omega, h3⟩
      · cases h

theorem Memory.loadSeq_of_holds {m : Memory} {p : Nat} {a : List Nat} (h : m.holds p a) :
    m.loadSeq p a.length = .ok a := by
  induction a generalizing p with
  | nil => rfl
  | cons x a ih =>
    have h0 := h 0 (by simp)
    simp only [List.getElem_cons_zero, Nat.add_zero] at h0
    have ht : m.holds (p + 1) a := fun i hi => by
      have := h (i + 1) (by simpa using hi)
      simpa [Nat.add_assoc, Nat.add_comm 1] using this
    have hx : (wordOf x).toNat = x := by
      simp only [BitVec.toNat_ofNat]; exact Nat.mod_eq_of_lt (lt_trans h0.1 (by decide))
    simp [Memory.loadSeq, Memory.fetch_eq_ok.2 h0.2, ih ht, hx]

theorem Memory.read?_storeSeq (m : Memory) (p : Nat) (a : List Nat) (k : Nat) :
    (m.storeSeq p a).read? k = if h : p ≤ k ∧ k < p + a.length then some (wordOf (a[k - p]'(by omega))) else m.read? k := by
  induction a generalizing m p with
  | nil =>
    rw [dif_neg (by simp)]; rfl
  | cons x a ih =>
    simp only [Memory.storeSeq, ih, Memory.read?_write, List.length_cons]
    by_cases h1 : p + 1 ≤ k ∧ k < p + 1 + a.length
    · rw [dif_pos h1, dif_pos ⟨by omega, by omega⟩]
      simp only [show k - p = (k - (p + 1)) + 1 by omega, List.getElem_cons_succ]
    · rw [dif_neg h1]
      by_cases h2 : p = k
      · subst h2; rw [if_pos rfl, dif_pos ⟨by omega, by omega⟩]; simp
      · rw [if_neg h2, dif_neg (by omega)]

theorem Memory.storeSeq_sameOutside (m : Memory) (p : Nat) (a : List Nat) :
    m.sameOutside (m.storeSeq p a) p a.length := fun k hk => by
  rw [Memory.read?_storeSeq, dif_neg hk]

theorem Memory.storeSeq_wf {m : Memory} (h : m.wf) (p : Nat) (a : List Nat) : (m.storeSeq p a).wf := by
  induction a generalizing m p with
  | nil => exact h
  | cons x a ih => exact ih (Memory.write_wf h _ _) _

theorem Memory.storeSeq_within {m : Memory} {words : Nat} (h : m.within words) (p : Nat) (a : List Nat)
    (hp : p + a.length ≤ words) : (m.storeSeq p a).within words := by
  induction a generalizing m p with
  | nil => exact h
  | cons x a ih =>
    simp only [List.length_cons] at hp
    exact ih (Memory.write_within h (by omega) _) _ (by omega)

theorem Memory.holds_storeSeq (m : Memory) (p : Nat) {a : List Nat} (h : ∀ x ∈ a, x < Config.modulus) :
    (m.storeSeq p a).holds p a := fun i hi => by
  refine ⟨h _ (List.getElem_mem hi), ?_⟩
  rw [Memory.read?_storeSeq, dif_pos ⟨by omega, by omega⟩]
  simp

/-! ## Agreement outside a range -/

theorem Memory.sameOutside_refl (m : Memory) (p n : Nat) : m.sameOutside m p n := fun _ _ => rfl

theorem Memory.sameOutside_trans {m m' m'' : Memory} {p n : Nat} (h : m.sameOutside m' p n)
    (h' : m'.sameOutside m'' p n) : m.sameOutside m'' p n := fun i hi => (h' i hi).trans (h i hi)

end Sys2Proof.Machine
end

