-- ==== Sys2Proof/Laws/Permutation.lean ====
section
/-! SUPPORT. The bit-reversal permutation: the table of R130 reverses bits, reversal is an involution (R133), and what the
swap loop of R131 does to DMEM. -/

namespace Sys2Proof.Machine

/-! ## Reversing bits -/

theorem reverseBits_lt (h i : Nat) : reverseBits h i < 2 ^ h := by
  induction h generalizing i with
  | zero => simp [reverseBits]
  | succ h ih =>
    have := ih (i / 2)
    have hb : i % 2 < 2 := Nat.mod_lt _ (by omega)
    have : (i % 2) * 2 ^ h ≤ 2 ^ h := by
      calc (i % 2) * 2 ^ h ≤ 1 * 2 ^ h := Nat.mul_le_mul_right _ (by omega)
        _ = 2 ^ h := Nat.one_mul _
    simp only [reverseBits, pow_succ]
    omega

/-- Reversal seen from the top bit: bit `h` of `i` becomes bit 0. -/
theorem reverseBits_succ_top (h : Nat) : ∀ b i : Nat, b < 2 → i < 2 ^ h →
    reverseBits (h + 1) (b * 2 ^ h + i) = 2 * reverseBits h i + b := by
  induction h with
  | zero =>
    intro b i hb hi
    obtain rfl : i = 0 := by simpa using hi
    simp [reverseBits]; omega
  | succ h ih =>
    intro b i hb hi
    have hp : 2 ^ (h + 1) = 2 * 2 ^ h := by rw [pow_succ, Nat.mul_comm]
    have hmod : (b * 2 ^ (h + 1) + i) % 2 = i % 2 := by
      rw [hp, show b * (2 * 2 ^ h) + i = i + 2 * (b * 2 ^ h) by ring]; omega
    have hdiv : (b * 2 ^ (h + 1) + i) / 2 = b * 2 ^ h + i / 2 := by
      rw [hp, show b * (2 * 2 ^ h) + i = i + 2 * (b * 2 ^ h) by ring]; omega
    rw [reverseBits, hmod, hdiv, ih b (i / 2) hb (by omega)]
    simp only [reverseBits]
    rw [hp]; ring

theorem reverseBits_low {h i : Nat} (hi : i < 2 ^ h) : reverseBits (h + 1) i = 2 * reverseBits h i := by
  simpa using reverseBits_succ_top h 0 i (by omega) hi

/-- Reversal is an involution (R133). -/
theorem reverseBits_reverseBits {h i : Nat} (hi : i < 2 ^ h) : reverseBits h (reverseBits h i) = i := by
  induction h generalizing i with
  | zero =>
    obtain rfl : i = 0 := by simpa using hi
    rfl
  | succ h ih =>
    rw [show reverseBits (h + 1) i = (i % 2) * 2 ^ h + reverseBits h (i / 2) from rfl,
      reverseBits_succ_top h _ _ (Nat.mod_lt _ (by omega)) (reverseBits_lt _ _), ih (by rw [pow_succ] at hi; omega)]
    omega

/-! ## The table -/

theorem revEntry_eq {h i : Nat} {rev : List Nat} (hi : 1 ≤ i) (hn : i < 2 ^ h)
    (hrev : ∀ j < i, rev.getD j 0 = reverseBits h j) : revEntry (2 ^ h) rev i = reverseBits h i := by
  cases h with
  | zero => simp at hn; omega
  | succ h =>
    have hhalf : i / 2 < 2 ^ h := by rw [pow_succ] at hn; omega
    have hp : 2 ^ (h + 1) / 2 = 2 ^ h := by rw [pow_succ]; omega
    have hlt := reverseBits_lt h (i / 2)
    simp only [revEntry, Nat.shiftRight_one]
    rw [hrev _ (by omega), reverseBits_low hhalf, hp, Nat.mul_div_cancel_left _ (by omega), reverseBits]
    split
    · have h1 : i % 2 = 1 := ‹_›
      have hor := Nat.two_pow_add_eq_or_of_lt hlt 1
      rw [h1, Nat.one_mul, Nat.or_comm, ← Nat.mul_one (2 ^ h), ← hor]
    · have h0 : i % 2 = 0 := by omega
      rw [h0, Nat.or_zero]; omega

theorem revtableLoop_spec (h : Nat) : ∀ (k i : Nat) (rev : List Nat), 1 ≤ i → i + k = 2 ^ h → rev.length = i →
    (∀ j < i, rev.getD j 0 = reverseBits h j) →
    (revtableLoop (2 ^ h) k i rev).length = 2 ^ h ∧
      ∀ j < 2 ^ h, (revtableLoop (2 ^ h) k i rev).getD j 0 = reverseBits h j := by
  intro k
  induction k with
  | zero => intro i rev _ hk hl hrev; obtain rfl : i = 2 ^ h := by omega
            exact ⟨hl, hrev⟩
  | succ k ih =>
    intro i rev h1 hk hl hrev
    have hpos : i < 2 ^ h := by omega
    refine ih (i + 1) _ (by omega) (by omega) (by simp [hl]) fun j hj => ?_
    rcases Nat.lt_or_ge j i with hji | hji
    · rw [List.getD_append _ _ _ _ (by omega)]; exact hrev j hji
    · obtain rfl : j = i := by omega
      rw [List.getD_append_right _ _ _ _ (by omega)]
      simp [hl, revEntry_eq h1 hpos hrev]

theorem reverseBits_zero (h : Nat) : reverseBits h 0 = 0 := by
  induction h with
  | zero => rfl
  | succ h ih => simp [reverseBits, ih]

theorem revtable_length (h : Nat) : (revtable (2 ^ h)).length = 2 ^ h :=
  (revtableLoop_spec h _ 1 [0] (by omega) (by have := Nat.two_pow_pos h; omega) rfl
    (by intro j hj; obtain rfl : j = 0 := by omega
        simp [reverseBits_zero])).1

/-- The table of R130 holds the reversals. -/
theorem revtable_getD {h j : Nat} (hj : j < 2 ^ h) : (revtable (2 ^ h)).getD j 0 = reverseBits h j :=
  (revtableLoop_spec h _ 1 [0] (by omega) (by have := Nat.two_pow_pos h; omega) rfl
    (by intro j hj; obtain rfl : j = 0 := by omega
        simp [reverseBits_zero])).2 j hj

/-! ## The swap loop -/

/-- The loop from index `k` on, for an involution `σ` in the table: the indices whose pair is still to come hold each
other's words, the others are as they were, and nothing outside moves. -/
theorem bitrevLoop_ok {p n : Nat} {rev : List Nat} {σ : Nat → Nat} (hσ : ∀ i < n, σ i < n ∧ σ (σ i) = i)
    (hrev : ∀ i < n, rev.getD i 0 = σ i) : ∀ (len k : Nat) (m m' : Memory), k + len = n →
    bitrevLoop p rev (List.range' k len) m = .ok m' →
    (∀ i < n, m'.read? (p + i) = if k ≤ i ∧ k ≤ σ i then m.read? (p + σ i) else m.read? (p + i)) ∧
      m.sameOutside m' p n := by
  intro len
  induction len with
  | zero =>
    intro k m m' hk h
    cases h
    refine ⟨fun i hi => ?_, Memory.sameOutside_refl _ _ _⟩
    rw [if_neg (by omega)]
  | succ len ih =>
    intro k m m' hk h
    have hkn : k < n := by omega
    obtain ⟨hs, hss⟩ := hσ k hkn
    simp only [List.range'_succ, bitrevLoop, hrev k hkn] at h
    split at h
    · split at h
      · cases h
      · rename_i hlt _ m₁ hsw
        obtain ⟨x, y, hx, hy, rfl⟩ := Memory.swap_eq_ok hsw
        obtain ⟨hin, hout⟩ := ih (k + 1) _ _ (by omega) h
        have hne : p + k ≠ p + σ k := by omega
        have hread : ∀ q, (((m.write (p + k) y).write (p + σ k) x)).read? q =
            if p + σ k = q then some x else if p + k = q then some y else m.read? q := by
          intro q; simp only [Memory.read?_write]
        refine ⟨fun i hi => ?_, fun q hq => ?_⟩
        · rw [hin i hi]
          obtain ⟨hsi, hssi⟩ := hσ i hi
          by_cases hik : i = k
          · subst hik
            rw [if_neg (by omega), if_pos ⟨le_refl _, by omega⟩, hread, if_neg (by omega), if_pos rfl, hy]
          · by_cases hik' : i = σ k
            · subst hik'
              rw [hss, if_neg (by omega), if_pos ⟨by omega, le_refl _⟩, hread, if_pos rfl, hx]
            · have hsik : σ i ≠ k := by intro he; apply hik'; rw [← he, hssi]
              have hsik' : σ i ≠ σ k := by intro he; apply hik; rw [← hssi, he, hss]
              simp only [hread]
              rw [if_neg (show ¬p + σ k = p + σ i by omega), if_neg (show ¬p + k = p + σ i by omega),
                if_neg (show ¬p + σ k = p + i by omega), if_neg (show ¬p + k = p + i by omega)]
              by_cases hc : k ≤ i ∧ k ≤ σ i
              · rw [if_pos hc, if_pos (by omega)]
              · rw [if_neg hc, if_neg (by omega)]
        · rw [hout q hq, hread, if_neg (by omega), if_neg (by omega)]
    · obtain ⟨hin, hout⟩ := ih (k + 1) _ _ (by omega) h
      refine ⟨fun i hi => ?_, hout⟩
      rw [hin i hi]
      obtain ⟨hsi, hssi⟩ := hσ i hi
      by_cases hik : i = k
      · subst hik
        rw [if_neg (by omega)]
        by_cases hc : σ i = i
        · rw [hc, ite_self]
        · rw [if_neg (by omega)]
      · by_cases hik' : σ i = k
        · have hi' : i = σ k := by rw [← hik', hssi]
          rw [if_neg (by omega), if_neg (by omega)]
        · by_cases hc : k ≤ i ∧ k ≤ σ i
          · rw [if_pos hc, if_pos (by omega)]
          · rw [if_neg hc, if_neg (by omega)]

/-- The loop succeeds when every word it swaps is written. -/
theorem bitrevLoop_of_written {p : Nat} {rev : List Nat} : ∀ (is : List Nat) (m : Memory),
    (∀ i ∈ is, i < rev.getD i 0 → (∃ v, m.read? (p + i) = some v) ∧ ∃ v, m.read? (p + rev.getD i 0) = some v) →
    ∃ m', bitrevLoop p rev is m = .ok m' := by
  intro is
  induction is with
  | nil => intro m _; exact ⟨m, rfl⟩
  | cons i is ih =>
    intro m hw
    simp only [bitrevLoop]
    split
    · rename_i hlt
      obtain ⟨⟨x, hx⟩, ⟨y, hy⟩⟩ := hw i (by simp) hlt
      rw [Memory.swap_of_written hx hy]
      refine ih _ fun j hj hjlt => ?_
      have hkeep : ∀ q, (∃ v, m.read? q = some v) →
          ∃ v, ((m.write (p + i) y).write (p + rev.getD i 0) x).read? q = some v := by
        rintro q ⟨v, hv⟩
        simp only [Memory.read?_write]
        split
        · exact ⟨_, rfl⟩
        · split
          · exact ⟨_, rfl⟩
          · exact ⟨v, hv⟩
      obtain ⟨h1, h2⟩ := hw j (by simp [hj]) hjlt
      exact ⟨hkeep _ h1, hkeep _ h2⟩
    · exact ih m fun j hj => hw j (by simp [hj])

/-- The loop stops only at an unwritten word of a pair it swaps. -/
theorem bitrevLoop_eq_error {p : Nat} {rev : List Nat} {f : Fault} : ∀ (is : List Nat) (m : Memory),
    bitrevLoop p rev is m = .error f →
    ∃ i ∈ is, i < rev.getD i 0 ∧ ∃ q, (q = p + i ∨ q = p + rev.getD i 0) ∧ f = .unwrittenRead q ∧ m.read? q = none := by
  intro is
  induction is with
  | nil => intro m h; cases h
  | cons i is ih =>
    intro m h
    simp only [bitrevLoop] at h
    split at h
    · rename_i hlt
      split at h
      · rename_i hsw
        cases h
        obtain ⟨q, hq, hf⟩ := Memory.swap_eq_error hsw
        exact ⟨i, by simp, hlt, q, hq, hf⟩
      · rename_i hsw
        obtain ⟨x, y, -, -, rfl⟩ := Memory.swap_eq_ok hsw
        obtain ⟨j, hj, hjlt, q, hq, hf, hn⟩ := ih _ h
        refine ⟨j, by simp [hj], hjlt, q, hq, hf, ?_⟩
        simp only [Memory.read?_write] at hn
        split at hn
        · cases hn
        · split at hn
          · cases hn
          · exact hn
    · obtain ⟨j, hj, hr⟩ := ih _ h
      exact ⟨j, by simp [hj], hr⟩

theorem bitrevLoop_wf {p : Nat} {rev : List Nat} {words : Nat} : ∀ (is : List Nat) (m m' : Memory), m.wf →
    m.within words → bitrevLoop p rev is m = .ok m' → m'.wf ∧ m'.within words := by
  intro is
  induction is with
  | nil => intro m m' hw hi h; cases h; exact ⟨hw, hi⟩
  | cons i is ih =>
    intro m m' hw hi h
    simp only [bitrevLoop] at h
    split at h
    · split at h
      · cases h
      · rename_i hsw
        obtain ⟨x, y, hx, hy, rfl⟩ := Memory.swap_eq_ok hsw
        exact ih _ _ (Memory.write_wf (Memory.write_wf hw _ _) _ _)
          (Memory.write_within (Memory.write_within hi (Memory.lt_of_read? hi hx) _) (Memory.lt_of_read? hi hy) _) h
    · exact ih _ _ hw hi h

/-! ## `bitrev` -/

theorem reverseBits_involution (h : Nat) :
    ∀ i < 2 ^ h, reverseBits h i < 2 ^ h ∧ reverseBits h (reverseBits h i) = i :=
  fun i hi => ⟨reverseBits_lt h i, reverseBits_reverseBits hi⟩

/-- What `bitrev` does when it succeeds (R131): the word at `p + i` is the one that was at `p + rev[i]`. -/
theorem bitrev_ok {m m' : Memory} {p h : Nat} (hb : bitrev m p (2 ^ h) = .ok m') :
    (∀ i < 2 ^ h, m'.read? (p + i) = m.read? (p + reverseBits h i)) ∧ m.sameOutside m' p (2 ^ h) := by
  rw [bitrev, List.range_eq_range'] at hb
  obtain ⟨hin, hout⟩ := bitrevLoop_ok (reverseBits_involution h) (fun i hi => revtable_getD hi) (2 ^ h) 0 m m'
    (by omega) hb
  exact ⟨fun i hi => by simpa using hin i hi, hout⟩

theorem bitrev_wf {m m' : Memory} {p n words : Nat} (hw : m.wf) (hi : m.within words) (hb : bitrev m p n = .ok m') :
    m'.wf ∧ m'.within words := bitrevLoop_wf _ _ _ hw hi hb

/-- `bitrev` succeeds when every word that moves is written. -/
theorem bitrev_of_written {m : Memory} {p h : Nat}
    (hw : ∀ i < 2 ^ h, reverseBits h i ≠ i → ∃ v, m.read? (p + i) = some v) : ∃ m', bitrev m p (2 ^ h) = .ok m' := by
  refine bitrevLoop_of_written _ _ fun i hi hlt => ?_
  rw [List.mem_range] at hi
  rw [revtable_getD hi] at hlt ⊢
  refine ⟨hw i hi (by omega), hw _ (reverseBits_lt h i) ?_⟩
  rw [reverseBits_reverseBits hi]; omega

/-- `bitrev` stops only at an unwritten word that would move. -/
theorem bitrev_eq_error {m : Memory} {p h : Nat} {f : Fault} (hb : bitrev m p (2 ^ h) = .error f) :
    ∃ i < 2 ^ h, reverseBits h i ≠ i ∧ f = .unwrittenRead (p + i) ∧ m.read? (p + i) = none := by
  obtain ⟨i, hi, hlt, q, hq, hf, hn⟩ := bitrevLoop_eq_error _ _ hb
  rw [List.mem_range] at hi
  rw [revtable_getD hi] at hlt hq
  rcases hq with rfl | rfl
  · exact ⟨i, hi, by omega, hf, hn⟩
  · exact ⟨_, reverseBits_lt h i, by rw [reverseBits_reverseBits hi]; omega, hf, hn⟩

end Sys2Proof.Machine
end

