-- ==== Sys2Proof/Laws/ModArith.lean ====
section
/-! SUPPORT. The modular reduction unit and modular exponentiation: exact values, ranges, and what they are in the field
`ZMod M`. -/

namespace Sys2Proof.Machine

theorem modulus_pos : 0 < Config.modulus := by decide

/-! ## Exact values (R100-R103) -/

theorem addM_eq {a b : Nat} (ha : a < Config.modulus) (hb : b < Config.modulus) :
    addM a b = (a + b) % Config.modulus := by
  simp only [addM]
  split
  · rw [Nat.mod_eq_sub_mod ‹_›, Nat.mod_eq_of_lt (by omega)]
  · rw [Nat.mod_eq_of_lt (by omega)]

theorem subM_eq {a b : Nat} (ha : a < Config.modulus) (_hb : b < Config.modulus) :
    subM a b = (a + Config.modulus - b) % Config.modulus := by
  simp only [subM]
  split
  · rw [Nat.mod_eq_sub_mod ‹_›, Nat.mod_eq_of_lt (by omega)]
  · rw [Nat.mod_eq_of_lt (by omega)]

theorem addM_lt {a b : Nat} (ha : a < Config.modulus) (hb : b < Config.modulus) : addM a b < Config.modulus := by
  rw [addM_eq ha hb]; exact Nat.mod_lt _ modulus_pos

theorem subM_lt {a b : Nat} (ha : a < Config.modulus) (hb : b < Config.modulus) : subM a b < Config.modulus := by
  rw [subM_eq ha hb]; exact Nat.mod_lt _ modulus_pos

theorem mulM_lt (a b : Nat) : mulM a b < Config.modulus := Nat.mod_lt _ modulus_pos

theorem mulM_comm (a b : Nat) : mulM a b = mulM b a := by simp [mulM, Nat.mul_comm]

theorem mulM_assoc (a b c : Nat) : mulM (mulM a b) c = mulM a (mulM b c) := by
  simp [mulM, Nat.mul_assoc]

theorem mulM_one {a : Nat} (ha : a < Config.modulus) : mulM a 1 = a := by simp [mulM, Nat.mod_eq_of_lt ha]

theorem one_mulM {a : Nat} (ha : a < Config.modulus) : mulM 1 a = a := by simp [mulM, Nat.mod_eq_of_lt ha]

theorem powmodLoop_eq (m : Nat) (fuel : Nat) : ∀ r b e : Nat, r % m = r → e < 2 ^ fuel →
    powmodLoop m fuel r b e = r * b ^ e % m := by
  induction fuel with
  | zero =>
    intro r b e hr he
    obtain rfl : e = 0 := by omega
    simp [powmodLoop, hr]
  | succ fuel ih =>
    intro r b e hr he
    simp only [powmodLoop]
    split
    · simp_all
    · rw [ih _ _ _ (by split <;> simp [hr]) (by omega)]
      have hb : (b * b % m) ^ (e / 2) % m = b ^ (2 * (e / 2)) % m := by
        rw [← Nat.pow_mod, pow_mul, sq]
      split
      · have he' : b ^ e = b * b ^ (2 * (e / 2)) := by
          conv_lhs => rw [show e = 2 * (e / 2) + 1 by omega, pow_succ]
          rw [Nat.mul_comm]
        rw [he', Nat.mul_mod, hb, Nat.mod_mod, ← Nat.mul_mod, Nat.mul_assoc]
      · have he' : b ^ e = b ^ (2 * (e / 2)) := by
          rw [show 2 * (e / 2) = e by omega]
        rw [he', Nat.mul_mod, hb, ← Nat.mul_mod]

/-- The loop of R103 computes the power for every modulus, and every exponent of 64 bits. -/
theorem powmod_eq_pow (b e m : Nat) (he : e < 2 ^ 64) : powmod b e m = b ^ e % m := by
  rw [powmod, powmodLoop_eq m 64 _ _ _ (Nat.mod_mod _ _) he, Nat.mul_mod, Nat.mod_mod, ← Nat.pow_mod,
    ← Nat.mul_mod, Nat.one_mul]

theorem powmod_lt (b e : Nat) {m : Nat} (hm : 0 < m) (he : e < 2 ^ 64) : powmod b e m < m := by
  rw [powmod_eq_pow b e m he]; exact Nat.mod_lt _ hm

theorem inverse_lt (x : Nat) : inverse x < Config.modulus := powmod_lt _ _ modulus_pos (by decide)

theorem stageRoot_eq (r mh : Nat) : stageRoot r mh = r ^ ((Config.modulus - 1) / mh) % Config.modulus :=
  powmod_eq_pow _ _ _ (lt_of_le_of_lt (Nat.div_le_self _ _) (by decide))

theorem stageRoot_lt (r mh : Nat) : stageRoot r mh < Config.modulus := by
  rw [stageRoot_eq]; exact Nat.mod_lt _ modulus_pos

/-! ## The field (R5, R106) -/

theorem modulus_prime : Nat.Prime Config.modulus := by
  refine lucas_primality _ (3 : ZMod Config.modulus) ?_ fun q hq hd => ?_
  · have h : powmod 3 (Config.modulus - 1) Config.modulus = 1 := by decide
    rw [powmod_eq_pow _ _ _ (by decide)] at h
    have := (ZMod.natCast_eq_natCast_iff' (3 ^ (Config.modulus - 1)) 1 Config.modulus).2 (by rw [h]; decide)
    push_cast at this
    exact this
  · have key : ∀ e < 2 ^ 64, powmod 3 e Config.modulus ≠ 1 → (3 : ZMod Config.modulus) ^ e ≠ 1 := by
      intro e he hne h
      apply hne
      rw [powmod_eq_pow _ _ _ he]
      have h' : ((3 ^ e : ℕ) : ZMod Config.modulus) = ((1 : ℕ) : ZMod Config.modulus) := by push_cast; exact h
      exact (ZMod.natCast_eq_natCast_iff' _ _ _).1 h'
    have hfac : Config.modulus - 1 = 2 ^ 23 * 7 * 17 := by decide
    rw [hfac] at hd
    have hcases : q = 2 ∨ q = 7 ∨ q = 17 := by
      rcases (Nat.Prime.dvd_mul hq).1 hd with hd | hd
      · rcases (Nat.Prime.dvd_mul hq).1 hd with hd | hd
        · exact .inl ((Nat.prime_dvd_prime_iff_eq hq Nat.prime_two).1 (hq.dvd_of_dvd_pow hd))
        · exact .inr (.inl ((Nat.prime_dvd_prime_iff_eq hq (by norm_num)).1 hd))
      · exact .inr (.inr ((Nat.prime_dvd_prime_iff_eq hq (by norm_num)).1 hd))
    rcases hcases with rfl | rfl | rfl <;> exact key _ (by decide) (by decide)

end Sys2Proof.Machine
end

