-- ==== Sys2Proof/Laws/Transform.lean ====
section
/-! SUPPORT. The butterfly network on a sequence: lengths, closure of the field elements (R106), and each stage element by
element (R142, R144), in numbers and in the field `ZMod M`. -/

namespace Sys2Proof.Machine

/-- Every element of the sequence is a field element (R106). -/
abbrev FieldSeq (a : List Nat) : Prop := ∀ x ∈ a, x < Config.modulus

theorem FieldSeq.getD_lt {a : List Nat} (h : FieldSeq a) (i : Nat) : a.getD i 0 < Config.modulus := by
  rcases Nat.lt_or_ge i a.length with hi | hi
  · rw [List.getD_eq_getElem _ _ hi]; exact h _ (List.getElem_mem hi)
  · rw [List.getD_eq_default _ _ hi]; exact modulus_pos

theorem fieldSeq_of_getD {a : List Nat} (h : ∀ i < a.length, a.getD i 0 < Config.modulus) : FieldSeq a := fun x hx => by
  obtain ⟨i, hi, rfl⟩ := List.getElem_of_mem hx
  have := h i hi
  rwa [List.getD_eq_getElem _ _ hi] at this

/-! ## The running twiddle -/

@[simp] theorem twiddles_length (base m w : Nat) : (twiddles base m w).length = m := by
  induction m generalizing w with
  | zero => rfl
  | succ m ih => simp [twiddles, ih]

theorem twiddles_getD {base m w j : Nat} (hj : j < m) (hw : w < Config.modulus) :
    (twiddles base m w).getD j 0 = w * base ^ j % Config.modulus := by
  induction m generalizing w j with
  | zero => omega
  | succ m ih =>
    cases j with
    | zero => simp [twiddles, Nat.mod_eq_of_lt hw]
    | succ j =>
      simp only [twiddles, List.getD_cons_succ]
      rw [ih (by omega) (mulM_lt _ _), mulM, Nat.mod_mul_mod, pow_succ, Nat.mul_assoc, Nat.mul_comm base]

/-- The twiddle of the butterfly at offset `j`, the same in every window of the stage (R142). -/
theorem twiddles_one_getD {base m j : Nat} (hj : j < m) :
    (twiddles base m 1).getD j 0 = base ^ j % Config.modulus := by
  rw [twiddles_getD hj (by decide), Nat.one_mul]

/-! ## Windows -/

theorem mapWindows_length {f : List Nat → List Nat} {width : Nat} (hf : ∀ b, b.length = width → (f b).length = width)
    (count : Nat) {a : List Nat} (ha : a.length = count * width) : (mapWindows f width count a).length = count * width := by
  induction count generalizing a with
  | zero => simp [mapWindows]
  | succ count ih =>
    rw [Nat.succ_mul] at ha ⊢
    simp only [mapWindows, List.length_append]
    rw [hf _ (by simp [ha]), ih (by simp [ha])]
    omega

/-- Element `j` of window `q`. -/
theorem mapWindows_getD {f : List Nat → List Nat} {width : Nat} (hf : ∀ b, b.length = width → (f b).length = width)
    {count q j : Nat} (hq : q < count) (hj : j < width) {a : List Nat} (ha : a.length = count * width) :
    (mapWindows f width count a).getD (q * width + j) 0 = (f ((a.drop (q * width)).take width)).getD j 0 := by
  induction count generalizing a q with
  | zero => omega
  | succ count ih =>
    rw [Nat.succ_mul] at ha
    have hw : (f (a.take width)).length = width := hf _ (by simp [ha])
    simp only [mapWindows]
    cases q with
    | zero =>
      rw [Nat.zero_mul, Nat.zero_add, List.getD_append _ _ _ _ (by omega), List.drop_zero]
    | succ q =>
      rw [List.getD_append_right _ _ _ _ (by rw [hw, Nat.succ_mul]; omega), hw,
        show (q + 1) * width + j - width = q * width + j by rw [Nat.succ_mul]; omega,
        ih (by omega) (by simp [ha]), List.drop_drop, Nat.succ_mul, Nat.add_comm width]

theorem getD_take_drop {a : List Nat} {s width j : Nat} (hj : j < width) :
    ((a.drop s).take width).getD j 0 = a.getD (s + j) 0 := by
  simp only [List.getD_eq_getElem?_getD, List.getElem?_take, if_pos hj, List.getElem?_drop]

theorem zipWith_getD {f : Nat → Nat → Nat} {a b : List Nat} {j : Nat} (ha : j < a.length) (hb : j < b.length) :
    (List.zipWith f a b).getD j 0 = f (a.getD j 0) (b.getD j 0) := by
  rw [List.getD_eq_getElem _ _ (by simp [ha, hb]), List.getElem_zipWith, List.getD_eq_getElem _ _ ha,
    List.getD_eq_getElem _ _ hb]

/-! ## One window -/

section Window
variable (base : Nat) {m j : Nat} {b : List Nat}

theorem ctWindow_length (hb : b.length = 2 * m) : (ctWindow base m b).length = 2 * m := by
  simp [ctWindow, hb]; omega

theorem gsWindow_length (hb : b.length = 2 * m) : (gsWindow base m b).length = 2 * m := by
  simp [gsWindow, hb]; omega

theorem take_getD (hj : j < m) : (b.take m).getD j 0 = b.getD j 0 := by
  simp [List.getD_eq_getElem?_getD, hj]

theorem drop_getD : (b.drop m).getD j 0 = b.getD (m + j) 0 := by
  simp [List.getD_eq_getElem?_getD]

theorem ctWindow_upper (hb : b.length = 2 * m) (hj : j < m) :
    (ctWindow base m b).getD j 0 = addM (b.getD j 0) (mulM (base ^ j % Config.modulus) (b.getD (m + j) 0)) := by
  simp only [ctWindow]
  rw [List.getD_append _ _ _ _ (by simp [hb]; omega), zipWith_getD (by simp [hb]; omega) (by simp [hb]; omega),
    zipWith_getD (by simpa using hj) (by simp [hb]; omega), take_getD hj, drop_getD, twiddles_one_getD hj]

theorem ctWindow_lower (hb : b.length = 2 * m) (hj : j < m) :
    (ctWindow base m b).getD (m + j) 0 = subM (b.getD j 0) (mulM (base ^ j % Config.modulus) (b.getD (m + j) 0)) := by
  have hl : (List.zipWith addM (b.take m) (List.zipWith mulM (twiddles base m 1) (b.drop m))).length = m := by
    simp [hb]; omega
  simp only [ctWindow]
  rw [List.getD_append_right _ _ _ _ (by omega), hl, Nat.add_sub_cancel_left,
    zipWith_getD (by simp [hb]; omega) (by simp [hb]; omega),
    zipWith_getD (by simpa using hj) (by simp [hb]; omega), take_getD hj, drop_getD, twiddles_one_getD hj]

theorem gsWindow_upper (hb : b.length = 2 * m) (hj : j < m) :
    (gsWindow base m b).getD j 0 = addM (b.getD j 0) (b.getD (m + j) 0) := by
  simp only [gsWindow]
  rw [List.getD_append _ _ _ _ (by simp [hb]; omega), zipWith_getD (by simp [hb]; omega) (by simp [hb]; omega),
    take_getD hj, drop_getD]

theorem gsWindow_lower (hb : b.length = 2 * m) (hj : j < m) :
    (gsWindow base m b).getD (m + j) 0 = mulM (base ^ j % Config.modulus) (subM (b.getD j 0) (b.getD (m + j) 0)) := by
  have hl : (List.zipWith addM (b.take m) (b.drop m)).length = m := by simp [hb]; omega
  simp only [gsWindow]
  rw [List.getD_append_right _ _ _ _ (by omega), hl, Nat.add_sub_cancel_left,
    zipWith_getD (by simpa using hj) (by simp [hb]; omega),
    zipWith_getD (by simp [hb]; omega) (by simp [hb]; omega), take_getD hj, drop_getD, twiddles_one_getD hj]

end Window

/-! ## One stage (R142, R144) -/

section Stage
variable {m count q j : Nat} {a : List Nat}

theorem ctStage_length (r : Nat) (hm : 0 < m) (ha : a.length = count * (2 * m)) :
    (ctStage r (2 * m) a).length = a.length := by
  rw [ctStage, ha, Nat.mul_div_cancel _ (by omega), Nat.mul_div_cancel_left _ (by omega : 0 < 2)]
  exact mapWindows_length (fun b hb => ctWindow_length _ hb) _ ha

theorem gsStage_length (base : Nat) (hm : 0 < m) (ha : a.length = count * (2 * m)) :
    (gsStage base m a).length = a.length := by
  rw [gsStage, ha, Nat.mul_div_cancel _ (by omega)]
  exact mapWindows_length (fun b hb => gsWindow_length _ hb) _ ha

theorem window_length (hq : q < count) (ha : a.length = count * (2 * m)) :
    ((a.drop (q * (2 * m))).take (2 * m)).length = 2 * m := by
  have : (q + 1) * (2 * m) ≤ count * (2 * m) := Nat.mul_le_mul_right _ hq
  rw [Nat.succ_mul] at this
  simp [ha]; omega

theorem ctStage_getD (r : Nat) (hm : 0 < m) (hq : q < count) (hj : j < 2 * m) (ha : a.length = count * (2 * m)) :
    (ctStage r (2 * m) a).getD (q * (2 * m) + j) 0 =
      (ctWindow (stageRoot r (2 * m)) m ((a.drop (q * (2 * m))).take (2 * m))).getD j 0 := by
  rw [ctStage, ha, Nat.mul_div_cancel _ (by omega), Nat.mul_div_cancel_left _ (by omega : 0 < 2)]
  exact mapWindows_getD (fun b hb => ctWindow_length _ hb) hq hj ha

theorem gsStage_getD (base : Nat) (hm : 0 < m) (hq : q < count) (hj : j < 2 * m) (ha : a.length = count * (2 * m)) :
    (gsStage base m a).getD (q * (2 * m) + j) 0 =
      (gsWindow base m ((a.drop (q * (2 * m))).take (2 * m))).getD j 0 := by
  rw [gsStage, ha, Nat.mul_div_cancel _ (by omega)]
  exact mapWindows_getD (fun b hb => gsWindow_length _ hb) hq hj ha

/-- The upper output of a butterfly of Variant A. -/
theorem ctStage_upper (r : Nat) (hq : q < count) (hj : j < m) (ha : a.length = count * (2 * m)) :
    (ctStage r (2 * m) a).getD (q * (2 * m) + j) 0 = addM (a.getD (q * (2 * m) + j) 0)
      (mulM (stageRoot r (2 * m) ^ j % Config.modulus) (a.getD (q * (2 * m) + m + j) 0)) := by
  rw [ctStage_getD r (by omega) hq (by omega) ha, ctWindow_upper _ (window_length hq ha) hj,
    getD_take_drop (by omega), getD_take_drop (by omega), Nat.add_assoc]

/-- The lower output of a butterfly of Variant A. -/
theorem ctStage_lower (r : Nat) (hq : q < count) (hj : j < m) (ha : a.length = count * (2 * m)) :
    (ctStage r (2 * m) a).getD (q * (2 * m) + m + j) 0 = subM (a.getD (q * (2 * m) + j) 0)
      (mulM (stageRoot r (2 * m) ^ j % Config.modulus) (a.getD (q * (2 * m) + m + j) 0)) := by
  rw [Nat.add_assoc, ctStage_getD r (by omega) hq (by omega) ha, ctWindow_lower _ (window_length hq ha) hj,
    getD_take_drop (by omega), getD_take_drop (by omega)]

/-- The upper output of a butterfly of Variant B. -/
theorem gsStage_upper (base : Nat) (hq : q < count) (hj : j < m) (ha : a.length = count * (2 * m)) :
    (gsStage base m a).getD (q * (2 * m) + j) 0 =
      addM (a.getD (q * (2 * m) + j) 0) (a.getD (q * (2 * m) + m + j) 0) := by
  rw [gsStage_getD base (by omega) hq (by omega) ha, gsWindow_upper _ (window_length hq ha) hj,
    getD_take_drop (by omega), getD_take_drop (by omega), Nat.add_assoc]

/-- The lower output of a butterfly of Variant B. -/
theorem gsStage_lower (base : Nat) (hq : q < count) (hj : j < m) (ha : a.length = count * (2 * m)) :
    (gsStage base m a).getD (q * (2 * m) + m + j) 0 = mulM (base ^ j % Config.modulus)
      (subM (a.getD (q * (2 * m) + j) 0) (a.getD (q * (2 * m) + m + j) 0)) := by
  rw [Nat.add_assoc, gsStage_getD base (by omega) hq (by omega) ha, gsWindow_lower _ (window_length hq ha) hj,
    getD_take_drop (by omega), getD_take_drop (by omega)]

/-- Every index of a sequence of `count` windows is the upper or the lower one of a butterfly. -/
theorem index_cases {i : Nat} (hm : 0 < m) (hi : i < count * (2 * m)) :
    ∃ q < count, ∃ j < m, i = q * (2 * m) + j ∨ i = q * (2 * m) + m + j := by
  have hmod : i % (2 * m) < 2 * m := Nat.mod_lt _ (by omega)
  have hdiv : i / (2 * m) < count := Nat.div_lt_of_lt_mul (by rwa [Nat.mul_comm])
  have heq : i = i / (2 * m) * (2 * m) + i % (2 * m) := (Nat.div_add_mod' i (2 * m)).symm
  rcases Nat.lt_or_ge (i % (2 * m)) m with h | h
  · exact ⟨_, hdiv, _, h, .inl heq⟩
  · exact ⟨_, hdiv, i % (2 * m) - m, by omega, .inr (by omega)⟩

theorem ctStage_fieldSeq (r : Nat) (hm : 0 < m) (ha : a.length = count * (2 * m)) (hf : FieldSeq a) :
    FieldSeq (ctStage r (2 * m) a) := fieldSeq_of_getD fun i hi => by
  rw [ctStage_length r hm ha, ha] at hi
  obtain ⟨q, hq, j, hj, rfl | rfl⟩ := index_cases hm hi
  · rw [ctStage_upper r hq hj ha]; exact addM_lt (hf.getD_lt _) (mulM_lt _ _)
  · rw [ctStage_lower r hq hj ha]; exact subM_lt (hf.getD_lt _) (mulM_lt _ _)

theorem gsStage_fieldSeq (base : Nat) (hm : 0 < m) (ha : a.length = count * (2 * m)) (hf : FieldSeq a) :
    FieldSeq (gsStage base m a) := fieldSeq_of_getD fun i hi => by
  rw [gsStage_length base hm ha, ha] at hi
  obtain ⟨q, hq, j, hj, rfl | rfl⟩ := index_cases hm hi
  · rw [gsStage_upper base hq hj ha]; exact addM_lt (hf.getD_lt _) (hf.getD_lt _)
  · rw [gsStage_lower base hq hj ha]; exact mulM_lt _ _

end Stage

/-! ## The networks: length and closure -/

theorem ctStages_spec (r : Nat) : ∀ (k d : Nat) (c : Nat) (a : List Nat), a.length = c * 2 ^ (d + k) → FieldSeq a →
    (ctStages r k (2 ^ (d + 1)) a).length = a.length ∧ FieldSeq (ctStages r k (2 ^ (d + 1)) a) := by
  intro k
  induction k with
  | zero => intro d c a _ hf; exact ⟨rfl, hf⟩
  | succ k ih =>
    intro d c a ha hf
    have hw : 2 ^ (d + 1) = 2 * 2 ^ d := by rw [pow_succ, Nat.mul_comm]
    have hc : a.length = (c * 2 ^ k) * (2 * 2 ^ d) := by rw [ha, show d + (k + 1) = d + 1 + k by omega, pow_add, hw]; ring
    have hl : (ctStage r (2 ^ (d + 1)) a).length = a.length := by rw [hw]; exact ctStage_length r (by positivity) hc
    have hfs : FieldSeq (ctStage r (2 ^ (d + 1)) a) := by rw [hw]; exact ctStage_fieldSeq r (by positivity) hc hf
    have hmh : 2 * 2 ^ (d + 1) = 2 ^ (d + 1 + 1) := by rw [pow_succ 2 (d + 1), Nat.mul_comm]
    rw [ctStages, hmh]
    have := ih (d + 1) c _ (by rw [hl, ha]; congr 2; omega) hfs
    rwa [hl] at this

theorem gsStages_spec : ∀ (k base c : Nat) (a : List Nat), a.length = c * 2 ^ k → FieldSeq a →
    (gsStages k base (2 ^ k / 2) a).length = a.length ∧ FieldSeq (gsStages k base (2 ^ k / 2) a) := by
  intro k
  induction k with
  | zero => intro base c a _ hf; exact ⟨rfl, hf⟩
  | succ k ih =>
    intro base c a ha hf
    have hm : 2 ^ (k + 1) / 2 = 2 ^ k := by rw [pow_succ]; omega
    have hc : a.length = c * (2 * 2 ^ k) := by rw [ha, pow_succ, Nat.mul_comm (2 ^ k)]
    have hl := gsStage_length base (by positivity) hc
    have hfs := gsStage_fieldSeq base (by positivity) hc hf
    rw [gsStages, hm]
    have := ih (mulM base base) (c * 2) _ (by rw [hl, hc]; ring) hfs
    rwa [hl] at this

section Network
variable {h : Nat} {a : List Nat}

theorem ctNetwork_length (r : Nat) (ha : a.length = 2 ^ h) (hf : FieldSeq a) : (ctNetwork r a).length = a.length := by
  rw [ctNetwork, ha, Nat.log2_two_pow]
  exact (ctStages_spec r h 0 1 a (by simp [ha]) hf).1.trans ha

theorem ctNetwork_fieldSeq (r : Nat) (ha : a.length = 2 ^ h) (hf : FieldSeq a) : FieldSeq (ctNetwork r a) := by
  rw [ctNetwork, ha, Nat.log2_two_pow]
  exact (ctStages_spec r h 0 1 a (by simp [ha]) hf).2

theorem gsNetwork_length (r : Nat) (ha : a.length = 2 ^ h) (hf : FieldSeq a) : (gsNetwork r a).length = a.length := by
  rw [gsNetwork, ha, Nat.log2_two_pow]
  exact (gsStages_spec h _ 1 a (by simp [ha]) hf).1.trans ha

theorem gsNetwork_fieldSeq (r : Nat) (ha : a.length = 2 ^ h) (hf : FieldSeq a) : FieldSeq (gsNetwork r a) := by
  rw [gsNetwork, ha, Nat.log2_two_pow]
  exact (gsStages_spec h _ 1 a (by simp [ha]) hf).2

theorem inttNetwork_length (r : Nat) (ha : a.length = 2 ^ h) (hf : FieldSeq a) :
    (inttNetwork r a).length = a.length := by
  rw [inttNetwork, List.length_map, ctNetwork_length _ ha hf]

theorem inttNetwork_fieldSeq (r : Nat) (a : List Nat) : FieldSeq (inttNetwork r a) := fun x hx => by
  obtain ⟨y, -, rfl⟩ := List.mem_map.1 hx
  exact mulM_lt _ _

end Network

end Sys2Proof.Machine
end

