-- ==== Sys2Proof/Laws/Dft.lean ====
section
/-! SUPPORT. The butterfly networks in a field of characteristic M: what every stage keeps, and so what the two networks
compute (R148, R149), and the inversion of the transform (R172, R174). -/

namespace Sys2Proof.Machine

/-- `r` meets the condition of R148. -/
abbrev NonResidue (r : Nat) : Prop := powmod r ((Config.modulus - 1) / 2) Config.modulus = Config.modulus - 1

section
variable {K : Type} [Field K] [CharP K Config.modulus]

/-- The transform of `g`, `n` points, with root `ω` (R148). -/
def dftF (ω : K) (n : Nat) (g : Nat → K) (k : Nat) : K := ∑ j ∈ Finset.range n, g j * ω ^ (j * k)

/-- Element `i` of a sequence as a field element. -/
def elemF (K : Type) [Field K] (a : List Nat) (i : Nat) : K := ((a.getD i 0 : Nat) : K)

/-- The stage root as a field element (R141). -/
def rootF (K : Type) [Field K] (r n : Nat) : K := (r : K) ^ ((Config.modulus - 1) / n)

/-! ## Numbers and field elements -/

omit [CharP K Config.modulus] in
theorem eq_of_cast_eq [CharP K Config.modulus] {a b : Nat} (ha : a < Config.modulus) (hb : b < Config.modulus)
    (h : (a : K) = (b : K)) : a = b :=
  CharP.natCast_injOn_Iio K Config.modulus (Set.mem_Iio.2 ha) (Set.mem_Iio.2 hb) h

theorem cast_mod (a : Nat) : ((a % Config.modulus : Nat) : K) = (a : K) := by
  conv_rhs => rw [← Nat.div_add_mod a Config.modulus]
  rw [Nat.cast_add, Nat.cast_mul, CharP.cast_eq_zero K Config.modulus, zero_mul, zero_add]

theorem cast_addM {a b : Nat} (ha : a < Config.modulus) (hb : b < Config.modulus) :
    ((addM a b : Nat) : K) = a + b := by
  rw [addM_eq ha hb, cast_mod, Nat.cast_add]

theorem cast_subM {a b : Nat} (ha : a < Config.modulus) (hb : b < Config.modulus) :
    ((subM a b : Nat) : K) = a - b := by
  rw [subM_eq ha hb, cast_mod, Nat.cast_sub (by omega), Nat.cast_add, CharP.cast_eq_zero K Config.modulus, add_zero]

theorem cast_mulM (a b : Nat) : ((mulM a b : Nat) : K) = a * b := by
  rw [mulM, cast_mod, Nat.cast_mul]

theorem cast_stageRoot (r n : Nat) : ((stageRoot r n : Nat) : K) = rootF K r n := by
  rw [stageRoot_eq, cast_mod, Nat.cast_pow]; rfl

theorem cast_inverse (x : Nat) : ((inverse x : Nat) : K) = (x : K) ^ (Config.modulus - 2) := by
  rw [inverse, powmod_eq_pow _ _ _ (by decide), cast_mod, Nat.cast_pow]

theorem cast_modulus_pred : ((Config.modulus - 1 : Nat) : K) = -1 := by
  rw [Nat.cast_sub (by decide), CharP.cast_eq_zero K Config.modulus, Nat.cast_one, zero_sub]

theorem NonResidue.pow_half {r : Nat} (hr : NonResidue r) : (r : K) ^ ((Config.modulus - 1) / 2) = -1 := by
  have h : ((powmod r ((Config.modulus - 1) / 2) Config.modulus : Nat) : K) = -1 := by rw [hr, cast_modulus_pred]
  rwa [powmod_eq_pow _ _ _ (by decide), cast_mod, Nat.cast_pow] at h

/-! ## Roots -/

theorem half_exponent {d : Nat} (hd : d + 1 ≤ 23) :
    (Config.modulus - 1) / 2 ^ (d + 1) * 2 ^ d = (Config.modulus - 1) / 2 := by
  obtain ⟨c, hc⟩ : 2 ^ (d + 1) ∣ Config.modulus - 1 :=
    (Nat.pow_dvd_pow 2 hd).trans ⟨119, by decide⟩
  rw [hc, Nat.mul_div_cancel_left _ (by positivity), pow_succ, show 2 ^ d * 2 * c = 2 * (2 ^ d * c) by ring,
    Nat.mul_div_cancel_left _ (by omega)]
  ring

theorem double_exponent {d : Nat} (hd : d + 1 ≤ 23) :
    (Config.modulus - 1) / 2 ^ (d + 1) * 2 = (Config.modulus - 1) / 2 ^ d := by
  obtain ⟨c, hc⟩ : 2 ^ (d + 1) ∣ Config.modulus - 1 :=
    (Nat.pow_dvd_pow 2 hd).trans ⟨119, by decide⟩
  rw [hc, Nat.mul_div_cancel_left _ (by positivity), pow_succ, show 2 ^ d * 2 * c = 2 ^ d * (2 * c) by ring,
    Nat.mul_div_cancel_left _ (by positivity)]
  ring

theorem rootF_pow_half {r d : Nat} (hr : NonResidue r) (hd : d + 1 ≤ 23) : rootF K r (2 ^ (d + 1)) ^ 2 ^ d = -1 := by
  rw [rootF, ← pow_mul, half_exponent hd, hr.pow_half]

omit [CharP K Config.modulus] in
theorem rootF_sq {r d : Nat} (hd : d + 1 ≤ 23) : rootF K r (2 ^ (d + 1)) ^ 2 = rootF K r (2 ^ d) := by
  rw [rootF, rootF, ← pow_mul, double_exponent hd]

theorem rootF_one {r : Nat} (hr : NonResidue r) : rootF K r 1 = 1 := by
  have h : (Config.modulus - 1) / 1 = (Config.modulus - 1) / 2 * 2 := by decide
  rw [rootF, h, pow_mul, hr.pow_half]; ring

theorem rootF_pow_self {r h : Nat} (hr : NonResidue r) (hh : h ≤ 23) : rootF K r (2 ^ h) ^ 2 ^ h = 1 := by
  cases h with
  | zero => rw [pow_zero, rootF_one hr, one_pow]
  | succ d => rw [show 2 ^ (d + 1) = 2 ^ d * 2 from pow_succ 2 d, pow_mul, ← pow_succ 2 d, rootF_pow_half hr hh]; ring

/-! ## Sums -/

omit [CharP K Config.modulus] in
theorem sum_range_two_mul (f : Nat → K) (n : Nat) :
    ∑ j ∈ Finset.range (2 * n), f j = ∑ j ∈ Finset.range n, (f (2 * j) + f (2 * j + 1)) := by
  induction n with
  | zero => rfl
  | succ n ih =>
    rw [show 2 * (n + 1) = 2 * n + 1 + 1 by omega, Finset.sum_range_succ, Finset.sum_range_succ, ih,
      Finset.sum_range_succ]
    ring

omit [CharP K Config.modulus] in
theorem neg_one_pow_two_mul (j : Nat) : (-1 : K) ^ (2 * j) = 1 := by rw [pow_mul]; simp

section Butterfly
variable {ω : K} {m : Nat} {f f₀ f₁ : Nat → K}

omit [CharP K Config.modulus] in
/-- The decimation-in-time step, upper half: `2m` points from the transforms of their even and odd points. -/
theorem dftF_split_upper (h₀ : ∀ j, f (2 * j) = f₀ j) (h₁ : ∀ j, f (2 * j + 1) = f₁ j) (t : Nat) :
    dftF ω (2 * m) f t = dftF (ω ^ 2) m f₀ t + ω ^ t * dftF (ω ^ 2) m f₁ t := by
  simp only [dftF]
  rw [sum_range_two_mul, Finset.mul_sum, ← Finset.sum_add_distrib]
  refine Finset.sum_congr rfl fun j _ => ?_
  rw [h₀, h₁]; ring

omit [CharP K Config.modulus] in
/-- The decimation-in-time step, lower half. -/
theorem dftF_split_lower (h₀ : ∀ j, f (2 * j) = f₀ j) (h₁ : ∀ j, f (2 * j + 1) = f₁ j) (hω : ω ^ m = -1) (t : Nat) :
    dftF ω (2 * m) f (m + t) = dftF (ω ^ 2) m f₀ t - ω ^ t * dftF (ω ^ 2) m f₁ t := by
  simp only [dftF]
  rw [sum_range_two_mul, Finset.mul_sum, ← Finset.sum_sub_distrib]
  refine Finset.sum_congr rfl fun j _ => ?_
  have e₀ : ω ^ (2 * j * (m + t)) = ω ^ (2 * (j * t)) := by
    rw [show 2 * j * (m + t) = m * (2 * j) + 2 * (j * t) by ring, pow_add, pow_mul, hω, neg_one_pow_two_mul, one_mul]
  have e₁ : ω ^ ((2 * j + 1) * (m + t)) = -(ω ^ t * ω ^ (2 * (j * t))) := by
    rw [show (2 * j + 1) * (m + t) = m * (2 * j) + m + (t + 2 * (j * t)) by ring, pow_add, pow_add, pow_mul, hω,
      neg_one_pow_two_mul, pow_add]
    ring
  rw [h₀, h₁, e₀, e₁, ← pow_mul ω 2]; ring

end Butterfly

/-! ## One stage in the field -/

section StageF
variable {m count q j : Nat} {a : List Nat}

theorem ctStage_upperF (r : Nat) (hf : FieldSeq a) (hq : q < count) (hj : j < m) (ha : a.length = count * (2 * m)) :
    elemF K (ctStage r (2 * m) a) (q * (2 * m) + j) =
      elemF K a (q * (2 * m) + j) + rootF K r (2 * m) ^ j * elemF K a (q * (2 * m) + m + j) := by
  rw [elemF, ctStage_upper r hq hj ha, cast_addM (hf.getD_lt _) (mulM_lt _ _), cast_mulM, cast_mod, Nat.cast_pow,
    cast_stageRoot]; rfl

theorem ctStage_lowerF (r : Nat) (hf : FieldSeq a) (hq : q < count) (hj : j < m) (ha : a.length = count * (2 * m)) :
    elemF K (ctStage r (2 * m) a) (q * (2 * m) + m + j) =
      elemF K a (q * (2 * m) + j) - rootF K r (2 * m) ^ j * elemF K a (q * (2 * m) + m + j) := by
  rw [elemF, ctStage_lower r hq hj ha, cast_subM (hf.getD_lt _) (mulM_lt _ _), cast_mulM, cast_mod, Nat.cast_pow,
    cast_stageRoot]; rfl

theorem gsStage_upperF (base : Nat) (hf : FieldSeq a) (hq : q < count) (hj : j < m) (ha : a.length = count * (2 * m)) :
    elemF K (gsStage base m a) (q * (2 * m) + j) = elemF K a (q * (2 * m) + j) + elemF K a (q * (2 * m) + m + j) := by
  rw [elemF, gsStage_upper base hq hj ha, cast_addM (hf.getD_lt _) (hf.getD_lt _)]; rfl

theorem gsStage_lowerF (base : Nat) (hf : FieldSeq a) (hq : q < count) (hj : j < m) (ha : a.length = count * (2 * m)) :
    elemF K (gsStage base m a) (q * (2 * m) + m + j) =
      (base : K) ^ j * (elemF K a (q * (2 * m) + j) - elemF K a (q * (2 * m) + m + j)) := by
  rw [elemF, gsStage_lower base hq hj ha, cast_mulM, cast_mod, Nat.cast_pow,
    cast_subM (hf.getD_lt _) (hf.getD_lt _)]; rfl

end StageF

/-! ## Variant A (R148) -/

/-- What holds after the first `d` stages of Variant A on `2^(d+e)` points of `g` in bit-reversed order: block `q` is the
transform of the points whose index ends in the reversal of `q`. -/
def CtBlocks (r d e : Nat) (g : Nat → K) (b : List Nat) : Prop :=
  ∀ q < 2 ^ e, ∀ t < 2 ^ d, elemF K b (q * 2 ^ d + t) =
    dftF (rootF K r (2 ^ d)) (2 ^ d) (fun j => g (j * 2 ^ e + reverseBits e q)) t

theorem reverseBits_even (e q : Nat) : reverseBits (e + 1) (2 * q) = reverseBits e q := by
  rw [reverseBits, Nat.mul_mod_right, Nat.mul_div_cancel_left _ (by omega)]; simp

theorem reverseBits_odd (e q : Nat) : reverseBits (e + 1) (2 * q + 1) = 2 ^ e + reverseBits e q := by
  rw [reverseBits, show (2 * q + 1) % 2 = 1 by omega, show (2 * q + 1) / 2 = q by omega, Nat.one_mul]

theorem ctStage_blocks {r d e : Nat} {g : Nat → K} {b : List Nat} (hr : NonResidue r) (hd : d + 1 ≤ 23)
    (hl : b.length = 2 ^ (d + (e + 1))) (hf : FieldSeq b) (hb : CtBlocks r d (e + 1) g b) :
    CtBlocks r (d + 1) e g (ctStage r (2 ^ (d + 1)) b) := by
  intro q hq t ht
  have hw : 2 ^ (d + 1) = 2 * 2 ^ d := by rw [pow_succ, Nat.mul_comm]
  have he : 2 ^ (e + 1) = 2 * 2 ^ e := by rw [pow_succ, Nat.mul_comm]
  have hlen : b.length = 2 ^ e * (2 * 2 ^ d) := by
    rw [hl, ← hw, ← pow_add, show d + (e + 1) = e + (d + 1) by omega]
  have hlow := hb (2 * q) (by omega)
  have hhigh := hb (2 * q + 1) (by omega)
  rw [← rootF_sq hd] at hlow hhigh
  have h₀ : ∀ j, g (2 * j * 2 ^ e + reverseBits e q) = g (j * 2 ^ (e + 1) + reverseBits (e + 1) (2 * q)) := fun j => by
    rw [reverseBits_even, he]; exact congrArg g (by ring)
  have h₁ : ∀ j, g ((2 * j + 1) * 2 ^ e + reverseBits e q) = g (j * 2 ^ (e + 1) + reverseBits (e + 1) (2 * q + 1)) :=
    fun j => by rw [reverseBits_odd, he]; exact congrArg g (by ring)
  rcases Nat.lt_or_ge t (2 ^ d) with htd | htd
  · have hu := ctStage_upperF (K := K) r hf hq htd hlen
    rw [← hw] at hu
    have l := hlow t htd
    have u := hhigh t htd
    rw [show 2 * q * 2 ^ d = q * 2 ^ (d + 1) by rw [hw]; ring] at l
    rw [show (2 * q + 1) * 2 ^ d = q * 2 ^ (d + 1) + 2 ^ d by rw [hw]; ring] at u
    rw [hu, l, u]
    have := dftF_split_upper (ω := rootF K r (2 ^ (d + 1))) (m := 2 ^ d) (f := fun j => g (j * 2 ^ e + reverseBits e q))
      (f₀ := fun j => g (j * 2 ^ (e + 1) + reverseBits (e + 1) (2 * q)))
      (f₁ := fun j => g (j * 2 ^ (e + 1) + reverseBits (e + 1) (2 * q + 1))) h₀ h₁ t
    rw [← hw] at this
    exact this.symm
  · obtain ⟨u, rfl⟩ := Nat.exists_eq_add_of_le htd
    have hut : u < 2 ^ d := by omega
    have hu := ctStage_lowerF (K := K) r hf hq hut hlen
    rw [← hw] at hu
    have l := hlow u hut
    have v := hhigh u hut
    rw [show 2 * q * 2 ^ d = q * 2 ^ (d + 1) by rw [hw]; ring] at l
    rw [show (2 * q + 1) * 2 ^ d = q * 2 ^ (d + 1) + 2 ^ d by rw [hw]; ring] at v
    rw [← Nat.add_assoc, hu, l, v]
    have := dftF_split_lower (ω := rootF K r (2 ^ (d + 1))) (m := 2 ^ d) (f := fun j => g (j * 2 ^ e + reverseBits e q))
      (f₀ := fun j => g (j * 2 ^ (e + 1) + reverseBits (e + 1) (2 * q)))
      (f₁ := fun j => g (j * 2 ^ (e + 1) + reverseBits (e + 1) (2 * q + 1))) h₀ h₁ (rootF_pow_half hr hd) u
    rw [← hw] at this
    exact this.symm

theorem ctStages_blocks {r : Nat} {g : Nat → K} (hr : NonResidue r) : ∀ (k d : Nat) (b : List Nat), d + k ≤ 23 →
    b.length = 2 ^ (d + k) → FieldSeq b → CtBlocks r d k g b →
    CtBlocks r (d + k) 0 g (ctStages r k (2 ^ (d + 1)) b) := by
  intro k
  induction k with
  | zero => intro d b _ _ _ hb; exact hb
  | succ k ih =>
    intro d b hd hl hf hb
    have hw : 2 ^ (d + 1) = 2 * 2 ^ d := by rw [pow_succ, Nat.mul_comm]
    have hc : b.length = 2 ^ k * (2 * 2 ^ d) := by
      rw [hl, ← hw, ← pow_add, show d + (k + 1) = k + (d + 1) by omega]
    rw [ctStages, show 2 * 2 ^ (d + 1) = 2 ^ (d + 1 + 1) by rw [pow_succ 2 (d + 1), Nat.mul_comm]]
    have hlen : (ctStage r (2 ^ (d + 1)) b).length = b.length := by rw [hw]; exact ctStage_length r (by positivity) hc
    have hfs : FieldSeq (ctStage r (2 ^ (d + 1)) b) := by rw [hw]; exact ctStage_fieldSeq r (by positivity) hc hf
    have := ih (d + 1) _ (by omega) (by rw [hlen, hl, show d + 1 + k = d + (k + 1) by omega]) hfs (ctStage_blocks hr (by omega) hl hf hb)
    rwa [show d + 1 + k = d + (k + 1) by omega] at this

/-- Variant A's network computes the natural-order transform of the sequence it holds in bit-reversed order (R148). -/
theorem ctNetwork_dft {r h : Nat} {g : Nat → K} {b : List Nat} (hr : NonResidue r) (hh : h ≤ 23)
    (hl : b.length = 2 ^ h) (hf : FieldSeq b) (hb : ∀ i < 2 ^ h, elemF K b i = g (reverseBits h i)) {k : Nat}
    (hk : k < 2 ^ h) : elemF K (ctNetwork r b) k = dftF (rootF K r (2 ^ h)) (2 ^ h) g k := by
  have h0 : CtBlocks r 0 h g b := fun q hq t ht => by
    obtain rfl : t = 0 := by simpa using ht
    simpa [dftF] using hb q hq
  have := ctStages_blocks hr h 0 b (by omega) (by simpa using hl) hf h0 0 (by simp) k (by simpa using hk)
  rw [ctNetwork, hl, Nat.log2_two_pow]
  simpa [reverseBits] using this

/-! ## Variant B (R149) -/

/-- The partial transform of `n` points spaced `step` from `t` on, twisted: what a block of Variant B holds. -/
def twistF (ω : K) (n step c : Nat) (g : Nat → K) (t : Nat) : K :=
  ω ^ (t * c) * ∑ l ∈ Finset.range n, g (t + l * step) * ω ^ (l * step * c)

omit [CharP K Config.modulus] in
theorem twistF_upper (ω : K) (n m c : Nat) (g : Nat → K) (t : Nat) :
    twistF ω (2 * n) m c g t = twistF ω n (2 * m) c g t + twistF ω n (2 * m) c g (m + t) := by
  simp only [twistF]
  rw [sum_range_two_mul, Finset.mul_sum, Finset.mul_sum, Finset.mul_sum, ← Finset.sum_add_distrib]
  refine Finset.sum_congr rfl fun l _ => ?_
  rw [show t + 2 * l * m = t + l * (2 * m) by ring, show t + (2 * l + 1) * m = m + t + l * (2 * m) by ring]
  ring

omit [CharP K Config.modulus] in
theorem twistF_lower {ω : K} {n m : Nat} (hω : ω ^ (n * m) = -1) (c : Nat) (g : Nat → K) (t : Nat) :
    twistF ω (2 * n) m (n + c) g t =
      (ω ^ n) ^ t * (twistF ω n (2 * m) c g t - twistF ω n (2 * m) c g (m + t)) := by
  simp only [twistF]
  rw [sum_range_two_mul, Finset.mul_sum, Finset.mul_sum, Finset.mul_sum, ← Finset.sum_sub_distrib, Finset.mul_sum]
  refine Finset.sum_congr rfl fun l _ => ?_
  have e₀ : ω ^ (2 * l * m * (n + c)) = ω ^ (l * (2 * m) * c) := by
    rw [show 2 * l * m * (n + c) = n * m * (2 * l) + l * (2 * m) * c by ring, pow_add, pow_mul, hω,
      neg_one_pow_two_mul, one_mul]
  have e₁ : ω ^ ((2 * l + 1) * m * (n + c)) = -(ω ^ (m * c) * ω ^ (l * (2 * m) * c)) := by
    rw [show (2 * l + 1) * m * (n + c) = n * m * (2 * l) + n * m + (m * c + l * (2 * m) * c) by ring, pow_add, pow_add,
      pow_mul, hω, neg_one_pow_two_mul, pow_add]
    ring
  rw [show t + 2 * l * m = t + l * (2 * m) by ring, show t + (2 * l + 1) * m = m + t + l * (2 * m) by ring, e₀, e₁]
  ring

/-- What holds after the first `s` stages of Variant B on `2^(s+e)` points of `g` in natural order. -/
def GsBlocks (ω : K) (s e : Nat) (g : Nat → K) (b : List Nat) : Prop :=
  ∀ q < 2 ^ s, ∀ t < 2 ^ e, elemF K b (q * 2 ^ e + t) = twistF ω (2 ^ s) (2 ^ e) (reverseBits s q) g t

theorem gsStage_blocks {ω : K} {s e base : Nat} {g : Nat → K} {b : List Nat}
    (hω : ω ^ (2 ^ s * 2 ^ e) = -1) (hbase : (base : K) = ω ^ 2 ^ s) (hl : b.length = 2 ^ (s + (e + 1)))
    (hf : FieldSeq b) (hb : GsBlocks ω s (e + 1) g b) : GsBlocks ω (s + 1) e g (gsStage base (2 ^ e) b) := by
  intro q' hq' t ht
  have hw : 2 ^ (e + 1) = 2 * 2 ^ e := by rw [pow_succ, Nat.mul_comm]
  have hs : 2 ^ (s + 1) = 2 * 2 ^ s := by rw [pow_succ, Nat.mul_comm]
  have hlen : b.length = 2 ^ s * (2 * 2 ^ e) := by rw [hl, ← hw, ← pow_add]
  obtain ⟨q, hq⟩ : ∃ q, q' = 2 * q ∨ q' = 2 * q + 1 := ⟨q' / 2, by omega⟩
  have hqs : q < 2 ^ s := by omega
  have hu := hb q hqs t (by omega)
  have hd := hb q hqs (2 ^ e + t) (by omega)
  rw [hw] at hu hd
  rw [hs]
  rcases hq with rfl | rfl
  · rw [show 2 * q * 2 ^ e = q * (2 * 2 ^ e) by ring, gsStage_upperF base hf hqs ht hlen, Nat.add_assoc, hu, hd,
      reverseBits_even, twistF_upper]
  · rw [show (2 * q + 1) * 2 ^ e = q * (2 * 2 ^ e) + 2 ^ e by ring, gsStage_lowerF base hf hqs ht hlen, Nat.add_assoc,
      hu, hd, reverseBits_odd, twistF_lower hω, hbase]

theorem gsStages_blocks {ω : K} {g : Nat → K} : ∀ (k s base : Nat) (b : List Nat),
    (0 < k → ω ^ 2 ^ (s + k - 1) = -1) → (base : K) = ω ^ 2 ^ s → b.length = 2 ^ (s + k) → FieldSeq b →
    GsBlocks ω s k g b → GsBlocks ω (s + k) 0 g (gsStages k base (2 ^ k / 2) b) := by
  intro k
  induction k with
  | zero => intro s base b _ _ _ _ hb; exact hb
  | succ k ih =>
    intro s base b hω hbase hl hf hb
    have hm : 2 ^ (k + 1) / 2 = 2 ^ k := by rw [pow_succ]; omega
    have hc : b.length = 2 ^ s * (2 * 2 ^ k) := by rw [hl, pow_add, pow_succ, Nat.mul_comm (2 ^ k)]
    have hω' := hω (by omega)
    rw [show s + (k + 1) - 1 = s + k by omega] at hω'
    rw [gsStages, hm]
    have := ih (s + 1) (mulM base base) (gsStage base (2 ^ k) b)
      (fun _ => by rw [show s + 1 + k - 1 = s + k by omega]; exact hω')
      (by rw [cast_mulM, hbase]; ring) (by rw [gsStage_length base (by positivity) hc, hl, show s + 1 + k = s + (k + 1) by omega])
      (gsStage_fieldSeq base (by positivity) hc hf)
      (gsStage_blocks (by rw [← pow_add]; exact hω') hbase hl hf hb)
    rwa [show s + 1 + k = s + (k + 1) by omega] at this

/-- Variant B's network leaves the transform of the sequence it holds in natural order, in bit-reversed order (R149). -/
theorem gsNetwork_dft {r h : Nat} {b : List Nat} (hr : NonResidue r) (hh : h ≤ 23) (hl : b.length = 2 ^ h)
    (hf : FieldSeq b) {k : Nat} (hk : k < 2 ^ h) :
    elemF K (gsNetwork r b) k = dftF (rootF K r (2 ^ h)) (2 ^ h) (elemF K b) (reverseBits h k) := by
  have h0 : GsBlocks (rootF K r (2 ^ h)) 0 h (elemF K b) b := fun q hq t ht => by
    obtain rfl : q = 0 := by simpa using hq
    simp [twistF, reverseBits]
  have := gsStages_blocks h 0 (stageRoot r (2 ^ h)) b
    (fun hpos => by
      obtain ⟨d, rfl⟩ := Nat.exists_eq_succ_of_ne_zero (Nat.ne_of_gt hpos)
      rw [Nat.zero_add, Nat.succ_sub_one]; exact rootF_pow_half hr hh)
    (by rw [cast_stageRoot, pow_zero, pow_one]) (by rw [hl, Nat.zero_add]) hf h0 k (by rw [Nat.zero_add]; exact hk) 0 (by simp)
  rw [gsNetwork, hl, Nat.log2_two_pow]
  rw [Nat.zero_add] at this
  simpa [twistF, dftF] using this

/-! ## Inversion (R172, R174) -/

theorem NonResidue.cast_ne_zero {r : Nat} (hr : NonResidue r) : (r : K) ≠ 0 := fun h => by
  have h1 := hr.pow_half (K := K)
  have hexp : (Config.modulus - 1) / 2 ≠ 0 := by decide
  rw [h, zero_pow hexp] at h1
  have h2 : (1 : K) = 0 := by rw [← neg_neg (1 : K), ← h1, neg_zero]
  exact one_ne_zero h2

omit [CharP K Config.modulus] in
theorem two_ne_zero_modulus [CharP K Config.modulus] : (-1 : K) ≠ 1 := fun h => by
  have h2 : ((2 : Nat) : K) = ((0 : Nat) : K) := by
    rw [Nat.cast_ofNat, Nat.cast_zero]
    calc (2 : K) = 1 + 1 := by ring
      _ = -1 + 1 := by rw [h]
      _ = 0 := by ring
  exact absurd (eq_of_cast_eq (by decide) (by decide) h2) (by decide)

/-- The stage root of `2^h` points has exactly that order. -/
theorem rootF_isPrimitiveRoot {r h : Nat} (hr : NonResidue r) (hh : h ≤ 23) :
    IsPrimitiveRoot (rootF K r (2 ^ h)) (2 ^ h) := by
  cases h with
  | zero => rw [pow_zero, rootF_one hr]; exact IsPrimitiveRoot.one
  | succ d =>
    have : orderOf (rootF K r (2 ^ (d + 1))) = 2 ^ (d + 1) := by
      have : Fact (Nat.Prime 2) := ⟨Nat.prime_two⟩
      refine orderOf_eq_prime_pow ?_ (rootF_pow_self hr hh)
      rw [rootF_pow_half hr hh]; exact two_ne_zero_modulus
    have hord := IsPrimitiveRoot.orderOf (rootF K r (2 ^ (d + 1)))
    rwa [this] at hord

omit [CharP K Config.modulus] in
/-- The sum of the powers of an `n`-th root of unity: `n` or nothing. -/
theorem sum_pow_root {ζ : K} {n : Nat} (hζ : ζ ^ n = 1) :
    (ζ = 1 → ∑ k ∈ Finset.range n, ζ ^ k = (n : K)) ∧ (ζ ≠ 1 → ∑ k ∈ Finset.range n, ζ ^ k = 0) := by
  constructor
  · rintro rfl; simp
  · intro hne
    have h := mul_neg_geom_sum ζ n
    rw [hζ, sub_self] at h
    rcases mul_eq_zero.1 h with h | h
    · exact absurd (sub_eq_zero.1 h).symm hne
    · exact h

omit [CharP K Config.modulus] in
/-- The inversion of the transform: `n` times the sequence comes back. -/
theorem dftF_dftF {ω ω' : K} {n : Nat} (hω : IsPrimitiveRoot ω n) (hinv : ω * ω' = 1) (g : Nat → K) {j : Nat}
    (hj : j < n) : dftF ω' n (dftF ω n g) j = (n : K) * g j := by
  have h1 : ω ^ n = 1 := hω.pow_eq_one
  have h1' : ω' ^ n = 1 := by
    have := congrArg (· ^ n) hinv
    simpa [mul_pow, h1] using this
  simp only [dftF, Finset.sum_mul]
  rw [Finset.sum_comm]
  have inner : ∀ l ∈ Finset.range n, ∑ k ∈ Finset.range n, g l * ω ^ (l * k) * ω' ^ (k * j) =
      if l = j then (n : K) * g l else 0 := fun l hl => by
    have hlt := Finset.mem_range.1 hl
    have hz : (ω ^ l * ω' ^ j) ^ n = 1 := by
      rw [mul_pow, ← pow_mul, ← pow_mul, Nat.mul_comm l, Nat.mul_comm j, pow_mul, pow_mul, h1, h1', one_pow, one_pow, one_mul]
    have hterm : ∀ k, g l * ω ^ (l * k) * ω' ^ (k * j) = g l * (ω ^ l * ω' ^ j) ^ k := fun k => by ring
    simp only [hterm]
    rw [← Finset.mul_sum]
    have hiff : ω ^ l * ω' ^ j = 1 ↔ l = j := by
      constructor
      · intro h
        refine hω.pow_inj hlt hj ?_
        have hjj : ω ^ j * ω' ^ j = 1 := by rw [← mul_pow, hinv, one_pow]
        calc ω ^ l = ω ^ l * (ω ^ j * ω' ^ j) := by rw [hjj, mul_one]
          _ = ω ^ j * (ω ^ l * ω' ^ j) := by ring
          _ = ω ^ j := by rw [h, mul_one]
      · rintro rfl; rw [← mul_pow, hinv, one_pow]
    by_cases h : l = j
    · rw [(sum_pow_root hz).1 (hiff.2 h), if_pos h, mul_comm]
    · rw [(sum_pow_root hz).2 (fun hc => h (hiff.1 hc)), if_neg h, mul_zero]
  rw [Finset.sum_congr rfl inner, Finset.sum_ite_eq' (Finset.range n) j, if_pos (Finset.mem_range.2 hj)]

end

/-! ## The inverse root, in the field of the rules -/

/-- The field of the transforms (R5). -/
theorem inverse_mul_self {K : Type} [Field K] [CharP K Config.modulus] {x : Nat} (hx : (x : K) ≠ 0) :
    (x : K) * ((inverse x : Nat) : K) = 1 := by
  have hprime : Fact (Nat.Prime Config.modulus) := ⟨modulus_prime⟩
  have hz : (x : ZMod Config.modulus) ≠ 0 := fun h => by
    rw [ZMod.natCast_eq_zero_iff] at h
    exact hx ((CharP.cast_eq_zero_iff K Config.modulus x).2 h)
  have hf := ZMod.pow_card_sub_one_eq_one hz
  have hnat : x ^ (Config.modulus - 1) ≡ 1 [MOD Config.modulus] := by
    rw [← ZMod.natCast_eq_natCast_iff, Nat.cast_pow, Nat.cast_one]; exact hf
  have hk : ((x ^ (Config.modulus - 1) : Nat) : K) = ((1 : Nat) : K) := (CharP.natCast_eq_natCast K Config.modulus).2 hnat
  rw [Nat.cast_pow, Nat.cast_one] at hk
  rw [cast_inverse, ← pow_succ', show Config.modulus - 2 + 1 = Config.modulus - 1 by decide]
  exact hk

theorem NonResidue.inverse {r : Nat} (hr : NonResidue r) : NonResidue (inverse r) := by
  have hprime : Fact (Nat.Prime Config.modulus) := ⟨modulus_prime⟩
  have h := hr.pow_half (K := ZMod Config.modulus)
  have hi := inverse_mul_self (hr.cast_ne_zero (K := ZMod Config.modulus))
  refine eq_of_cast_eq (K := ZMod Config.modulus) (powmod_lt _ _ modulus_pos (by decide)) (by decide) ?_
  rw [powmod_eq_pow _ _ _ (by decide), cast_mod, cast_modulus_pred, Nat.cast_pow]
  have hpow := congrArg (· ^ ((Config.modulus - 1) / 2)) hi
  simp only [mul_pow, one_pow, h] at hpow
  calc _ = -(-1 * (((Machine.inverse r : Nat) : ZMod Config.modulus) ^ ((Config.modulus - 1) / 2))) := by ring
    _ = -1 := by rw [hpow]

theorem rootF_inverse {K : Type} [Field K] [CharP K Config.modulus] {r : Nat} (hr : NonResidue r) (n : Nat) :
    rootF K r n * rootF K (inverse r) n = 1 := by
  rw [rootF, rootF, ← mul_pow, inverse_mul_self hr.cast_ne_zero, one_pow]

end Sys2Proof.Machine
end

