-- ==== Sys2Proof/Laws/State.lean ====
section
/-! SUPPORT. One lemma per field and per named update of the state, true by `rfl`, so that no proof unfolds a record update. -/

namespace Sys2Proof.Machine

section
variable (s : State) (v : Word)

@[simp] theorem State.setResult_cmd : (s.setResult v).cmd = s.cmd := rfl
@[simp] theorem State.setResult_status : (s.setResult v).status = s.status := rfl
@[simp] theorem State.setResult_base : (s.setResult v).base = s.base := rfl
@[simp] theorem State.setResult_len : (s.setResult v).len = s.len := rfl
@[simp] theorem State.setResult_arg0 : (s.setResult v).arg0 = s.arg0 := rfl
@[simp] theorem State.setResult_arg1 : (s.setResult v).arg1 = s.arg1 := rfl
@[simp] theorem State.setResult_arg2 : (s.setResult v).arg2 = s.arg2 := rfl
@[simp] theorem State.setResult_result : (s.setResult v).result = v := rfl
@[simp] theorem State.setResult_errinfo : (s.setResult v).errinfo = s.errinfo := rfl
@[simp] theorem State.setResult_dmemsz : (s.setResult v).dmemsz = s.dmemsz := rfl
@[simp] theorem State.setResult_pending : (s.setResult v).pending = s.pending := rfl
@[simp] theorem State.setResult_dmem : (s.setResult v).dmem = s.dmem := rfl
@[simp] theorem State.setResult_faulted : (s.setResult v).faulted = s.faulted := rfl
@[simp] theorem State.setResult_host : (s.setResult v).host = s.host := rfl
@[simp] theorem State.setResult_responses : (s.setResult v).responses = s.responses := rfl
@[simp] theorem State.setResult_delay : (s.setResult v).delay = s.delay := rfl
@[simp] theorem State.setResult_draws : (s.setResult v).draws = s.draws := rfl

end

section
variable (s : State) (m : Memory)

@[simp] theorem State.setDmem_cmd : (s.setDmem m).cmd = s.cmd := rfl
@[simp] theorem State.setDmem_status : (s.setDmem m).status = s.status := rfl
@[simp] theorem State.setDmem_base : (s.setDmem m).base = s.base := rfl
@[simp] theorem State.setDmem_len : (s.setDmem m).len = s.len := rfl
@[simp] theorem State.setDmem_arg0 : (s.setDmem m).arg0 = s.arg0 := rfl
@[simp] theorem State.setDmem_arg1 : (s.setDmem m).arg1 = s.arg1 := rfl
@[simp] theorem State.setDmem_arg2 : (s.setDmem m).arg2 = s.arg2 := rfl
@[simp] theorem State.setDmem_result : (s.setDmem m).result = s.result := rfl
@[simp] theorem State.setDmem_errinfo : (s.setDmem m).errinfo = s.errinfo := rfl
@[simp] theorem State.setDmem_dmemsz : (s.setDmem m).dmemsz = s.dmemsz := rfl
@[simp] theorem State.setDmem_pending : (s.setDmem m).pending = s.pending := rfl
@[simp] theorem State.setDmem_dmem : (s.setDmem m).dmem = m := rfl
@[simp] theorem State.setDmem_faulted : (s.setDmem m).faulted = s.faulted := rfl
@[simp] theorem State.setDmem_host : (s.setDmem m).host = s.host := rfl
@[simp] theorem State.setDmem_responses : (s.setDmem m).responses = s.responses := rfl
@[simp] theorem State.setDmem_delay : (s.setDmem m).delay = s.delay := rfl
@[simp] theorem State.setDmem_draws : (s.setDmem m).draws = s.draws := rfl

end

section
variable (s : State) (r : Response)

@[simp] theorem State.respond_cmd : (s.respond r).cmd = s.cmd := rfl
@[simp] theorem State.respond_status : (s.respond r).status = s.status := rfl
@[simp] theorem State.respond_base : (s.respond r).base = s.base := rfl
@[simp] theorem State.respond_len : (s.respond r).len = s.len := rfl
@[simp] theorem State.respond_arg0 : (s.respond r).arg0 = s.arg0 := rfl
@[simp] theorem State.respond_arg1 : (s.respond r).arg1 = s.arg1 := rfl
@[simp] theorem State.respond_arg2 : (s.respond r).arg2 = s.arg2 := rfl
@[simp] theorem State.respond_result : (s.respond r).result = s.result := rfl
@[simp] theorem State.respond_errinfo : (s.respond r).errinfo = s.errinfo := rfl
@[simp] theorem State.respond_dmemsz : (s.respond r).dmemsz = s.dmemsz := rfl
@[simp] theorem State.respond_pending : (s.respond r).pending = s.pending := rfl
@[simp] theorem State.respond_dmem : (s.respond r).dmem = s.dmem := rfl
@[simp] theorem State.respond_faulted : (s.respond r).faulted = s.faulted := rfl
@[simp] theorem State.respond_host : (s.respond r).host = s.host := rfl
@[simp] theorem State.respond_responses : (s.respond r).responses = s.responses ++ [r] := rfl
@[simp] theorem State.respond_delay : (s.respond r).delay = s.delay := rfl
@[simp] theorem State.respond_draws : (s.respond r).draws = s.draws := rfl

end

section
variable (s : State) (rest : List HostEvent)

@[simp] theorem State.takeEvent_cmd : (s.takeEvent rest).cmd = s.cmd := rfl
@[simp] theorem State.takeEvent_status : (s.takeEvent rest).status = s.status := rfl
@[simp] theorem State.takeEvent_base : (s.takeEvent rest).base = s.base := rfl
@[simp] theorem State.takeEvent_len : (s.takeEvent rest).len = s.len := rfl
@[simp] theorem State.takeEvent_arg0 : (s.takeEvent rest).arg0 = s.arg0 := rfl
@[simp] theorem State.takeEvent_arg1 : (s.takeEvent rest).arg1 = s.arg1 := rfl
@[simp] theorem State.takeEvent_arg2 : (s.takeEvent rest).arg2 = s.arg2 := rfl
@[simp] theorem State.takeEvent_result : (s.takeEvent rest).result = s.result := rfl
@[simp] theorem State.takeEvent_errinfo : (s.takeEvent rest).errinfo = s.errinfo := rfl
@[simp] theorem State.takeEvent_dmemsz : (s.takeEvent rest).dmemsz = s.dmemsz := rfl
@[simp] theorem State.takeEvent_pending : (s.takeEvent rest).pending = s.pending := rfl
@[simp] theorem State.takeEvent_dmem : (s.takeEvent rest).dmem = s.dmem := rfl
@[simp] theorem State.takeEvent_faulted : (s.takeEvent rest).faulted = s.faulted := rfl
@[simp] theorem State.takeEvent_host : (s.takeEvent rest).host = rest := rfl
@[simp] theorem State.takeEvent_responses : (s.takeEvent rest).responses = s.responses := rfl
@[simp] theorem State.takeEvent_delay : (s.takeEvent rest).delay = s.delay := rfl
@[simp] theorem State.takeEvent_draws : (s.takeEvent rest).draws = s.draws := rfl

end

section
variable (s : State)

@[simp] theorem State.spendDelay_cmd : s.spendDelay.cmd = s.cmd := rfl
@[simp] theorem State.spendDelay_status : s.spendDelay.status = s.status := rfl
@[simp] theorem State.spendDelay_base : s.spendDelay.base = s.base := rfl
@[simp] theorem State.spendDelay_len : s.spendDelay.len = s.len := rfl
@[simp] theorem State.spendDelay_arg0 : s.spendDelay.arg0 = s.arg0 := rfl
@[simp] theorem State.spendDelay_arg1 : s.spendDelay.arg1 = s.arg1 := rfl
@[simp] theorem State.spendDelay_arg2 : s.spendDelay.arg2 = s.arg2 := rfl
@[simp] theorem State.spendDelay_result : s.spendDelay.result = s.result := rfl
@[simp] theorem State.spendDelay_errinfo : s.spendDelay.errinfo = s.errinfo := rfl
@[simp] theorem State.spendDelay_dmemsz : s.spendDelay.dmemsz = s.dmemsz := rfl
@[simp] theorem State.spendDelay_pending : s.spendDelay.pending = s.pending := rfl
@[simp] theorem State.spendDelay_dmem : s.spendDelay.dmem = s.dmem := rfl
@[simp] theorem State.spendDelay_faulted : s.spendDelay.faulted = s.faulted := rfl
@[simp] theorem State.spendDelay_host : s.spendDelay.host = s.host := rfl
@[simp] theorem State.spendDelay_responses : s.spendDelay.responses = s.responses := rfl
@[simp] theorem State.spendDelay_delay : s.spendDelay.delay = s.delay - 1 := rfl
@[simp] theorem State.spendDelay_draws : s.spendDelay.draws = s.draws := rfl

end

section
variable (s : State) (v : Word)

@[simp] theorem State.accept_cmd : (s.accept v).cmd = v := rfl
@[simp] theorem State.accept_status : (s.accept v).status = statusBusy := rfl
@[simp] theorem State.accept_base : (s.accept v).base = s.base := rfl
@[simp] theorem State.accept_len : (s.accept v).len = s.len := rfl
@[simp] theorem State.accept_arg0 : (s.accept v).arg0 = s.arg0 := rfl
@[simp] theorem State.accept_arg1 : (s.accept v).arg1 = s.arg1 := rfl
@[simp] theorem State.accept_arg2 : (s.accept v).arg2 = s.arg2 := rfl
@[simp] theorem State.accept_result : (s.accept v).result = s.result := rfl
@[simp] theorem State.accept_errinfo : (s.accept v).errinfo = 0 := rfl
@[simp] theorem State.accept_dmemsz : (s.accept v).dmemsz = s.dmemsz := rfl
@[simp] theorem State.accept_pending : (s.accept v).pending = true := rfl
@[simp] theorem State.accept_dmem : (s.accept v).dmem = s.dmem := rfl
@[simp] theorem State.accept_faulted : (s.accept v).faulted = s.faulted := rfl
@[simp] theorem State.accept_host : (s.accept v).host = s.host := rfl
@[simp] theorem State.accept_responses : (s.accept v).responses = s.responses := rfl
@[simp] theorem State.accept_delay : (s.accept v).delay = Config.completionDelay s.draws := rfl
@[simp] theorem State.accept_draws : (s.accept v).draws = s.draws + 1 := rfl

end

section
variable (s : State)

@[simp] theorem State.complete_cmd : s.complete.cmd = s.cmd := rfl
@[simp] theorem State.complete_status : s.complete.status = statusDone := rfl
@[simp] theorem State.complete_base : s.complete.base = s.base := rfl
@[simp] theorem State.complete_len : s.complete.len = s.len := rfl
@[simp] theorem State.complete_arg0 : s.complete.arg0 = s.arg0 := rfl
@[simp] theorem State.complete_arg1 : s.complete.arg1 = s.arg1 := rfl
@[simp] theorem State.complete_arg2 : s.complete.arg2 = s.arg2 := rfl
@[simp] theorem State.complete_result : s.complete.result = s.result := rfl
@[simp] theorem State.complete_errinfo : s.complete.errinfo = s.errinfo := rfl
@[simp] theorem State.complete_dmemsz : s.complete.dmemsz = s.dmemsz := rfl
@[simp] theorem State.complete_pending : s.complete.pending = false := rfl
@[simp] theorem State.complete_dmem : s.complete.dmem = s.dmem := rfl
@[simp] theorem State.complete_faulted : s.complete.faulted = s.faulted := rfl
@[simp] theorem State.complete_host : s.complete.host = s.host := rfl
@[simp] theorem State.complete_responses : s.complete.responses = s.responses := rfl
@[simp] theorem State.complete_delay : s.complete.delay = s.delay := rfl
@[simp] theorem State.complete_draws : s.complete.draws = s.draws := rfl

end

section
variable (s : State) (code : ErrCode) (info : Word)

@[simp] theorem State.cmdError_cmd : (s.cmdError code info).cmd = s.cmd := rfl
@[simp] theorem State.cmdError_status : (s.cmdError code info).status = statusError code := rfl
@[simp] theorem State.cmdError_base : (s.cmdError code info).base = s.base := rfl
@[simp] theorem State.cmdError_len : (s.cmdError code info).len = s.len := rfl
@[simp] theorem State.cmdError_arg0 : (s.cmdError code info).arg0 = s.arg0 := rfl
@[simp] theorem State.cmdError_arg1 : (s.cmdError code info).arg1 = s.arg1 := rfl
@[simp] theorem State.cmdError_arg2 : (s.cmdError code info).arg2 = s.arg2 := rfl
@[simp] theorem State.cmdError_result : (s.cmdError code info).result = s.result := rfl
@[simp] theorem State.cmdError_errinfo : (s.cmdError code info).errinfo = info := rfl
@[simp] theorem State.cmdError_dmemsz : (s.cmdError code info).dmemsz = s.dmemsz := rfl
@[simp] theorem State.cmdError_pending : (s.cmdError code info).pending = false := rfl
@[simp] theorem State.cmdError_dmem : (s.cmdError code info).dmem = s.dmem := rfl
@[simp] theorem State.cmdError_faulted : (s.cmdError code info).faulted = s.faulted := rfl
@[simp] theorem State.cmdError_host : (s.cmdError code info).host = s.host := rfl
@[simp] theorem State.cmdError_responses : (s.cmdError code info).responses = s.responses := rfl
@[simp] theorem State.cmdError_delay : (s.cmdError code info).delay = s.delay := rfl
@[simp] theorem State.cmdError_draws : (s.cmdError code info).draws = s.draws := rfl

end

section
variable (s : State) (kind : BusErrorKind)

@[simp] theorem State.busError_cmd : (s.busError kind).cmd = s.cmd := rfl
@[simp] theorem State.busError_status : (s.busError kind).status = s.status := rfl
@[simp] theorem State.busError_base : (s.busError kind).base = s.base := rfl
@[simp] theorem State.busError_len : (s.busError kind).len = s.len := rfl
@[simp] theorem State.busError_arg0 : (s.busError kind).arg0 = s.arg0 := rfl
@[simp] theorem State.busError_arg1 : (s.busError kind).arg1 = s.arg1 := rfl
@[simp] theorem State.busError_arg2 : (s.busError kind).arg2 = s.arg2 := rfl
@[simp] theorem State.busError_result : (s.busError kind).result = s.result := rfl
@[simp] theorem State.busError_errinfo : (s.busError kind).errinfo = s.errinfo := rfl
@[simp] theorem State.busError_dmemsz : (s.busError kind).dmemsz = s.dmemsz := rfl
@[simp] theorem State.busError_pending : (s.busError kind).pending = s.pending := rfl
@[simp] theorem State.busError_dmem : (s.busError kind).dmem = s.dmem := rfl
@[simp] theorem State.busError_faulted : (s.busError kind).faulted = true := rfl
@[simp] theorem State.busError_host : (s.busError kind).host = s.host := rfl
@[simp] theorem State.busError_responses : (s.busError kind).responses = s.responses ++ [.busError kind] := rfl
@[simp] theorem State.busError_delay : (s.busError kind).delay = s.delay := rfl
@[simp] theorem State.busError_draws : (s.busError kind).draws = s.draws := rfl

end

section
variable (s : State)

@[simp] theorem State.resetEvent_cmd : s.resetEvent.cmd = 0 := rfl
@[simp] theorem State.resetEvent_status : s.resetEvent.status = 0 := rfl
@[simp] theorem State.resetEvent_base : s.resetEvent.base = 0 := rfl
@[simp] theorem State.resetEvent_len : s.resetEvent.len = 0 := rfl
@[simp] theorem State.resetEvent_arg0 : s.resetEvent.arg0 = 0 := rfl
@[simp] theorem State.resetEvent_arg1 : s.resetEvent.arg1 = 0 := rfl
@[simp] theorem State.resetEvent_arg2 : s.resetEvent.arg2 = 0 := rfl
@[simp] theorem State.resetEvent_result : s.resetEvent.result = 0 := rfl
@[simp] theorem State.resetEvent_errinfo : s.resetEvent.errinfo = 0 := rfl
@[simp] theorem State.resetEvent_dmemsz : s.resetEvent.dmemsz = s.dmemsz := rfl
@[simp] theorem State.resetEvent_pending : s.resetEvent.pending = false := rfl
@[simp] theorem State.resetEvent_dmem : s.resetEvent.dmem = [] := rfl
@[simp] theorem State.resetEvent_faulted : s.resetEvent.faulted = s.faulted := rfl
@[simp] theorem State.resetEvent_host : s.resetEvent.host = s.host := rfl
@[simp] theorem State.resetEvent_responses : s.resetEvent.responses = s.responses := rfl
@[simp] theorem State.resetEvent_delay : s.resetEvent.delay = s.delay := rfl
@[simp] theorem State.resetEvent_draws : s.resetEvent.draws = s.draws := rfl

end

/-! A host write of a register. -/

section
variable (s : State) (r : RegName) (v : Word)

@[simp] theorem State.writeReg_result : (s.writeReg r v).result = s.result := by cases r <;> rfl
@[simp] theorem State.writeReg_dmemsz : (s.writeReg r v).dmemsz = s.dmemsz := by cases r <;> rfl
@[simp] theorem State.writeReg_dmem : (s.writeReg r v).dmem = s.dmem := by cases r <;> rfl
@[simp] theorem State.writeReg_faulted : (s.writeReg r v).faulted = s.faulted := by cases r <;> rfl
@[simp] theorem State.writeReg_host : (s.writeReg r v).host = s.host := by cases r <;> rfl
@[simp] theorem State.writeReg_responses : (s.writeReg r v).responses = s.responses := by cases r <;> rfl

end

end Sys2Proof.Machine
end

