-- ==== Sys2Proof/Laws/Commands.lean ====
section
/-! SUPPORT. What the checks and the bodies of the commands can answer, said once: the later proofs cite these lemmas
instead of unfolding the meanings. -/

namespace Sys2Proof.Machine

/-! ## Ending a command -/

theorem finishCommand_next {s t : State} {r : Except Abort State} (h : finishCommand s r = .next t) :
    (∃ s', r = .ok s' ∧ t = s'.complete) ∨ ∃ c i, r = .error (.cmdError c i) ∧ t = s.cmdError c i := by
  unfold finishCommand at h
  split at h
  · cases h; exact .inl ⟨_, rfl, rfl⟩
  · cases h; exact .inr ⟨_, _, rfl, rfl⟩
  · cases h

theorem finishCommand_fault {s : State} {f : Fault} {r : Except Abort State} (h : finishCommand s r = .fault f) :
    r = .error (.modelFault f) := by
  unfold finishCommand at h
  split at h
  · cases h
  · cases h
  · cases h; rfl

theorem finishCommand_ne_refused {s : State} {f : Refusal} {r : Except Abort State} : finishCommand s r ≠ .refused f := by
  unfold finishCommand
  split <;> simp

/-! ## The checks -/

theorem isPowerOfTwo_iff {hmax n : Nat} : isPowerOfTwo hmax n = true ↔ ∃ h ≤ hmax, n = 2 ^ h := by
  simp [isPowerOfTwo]

theorem isPowerOfTwo_two_pow {hmax h : Nat} (hh : h ≤ hmax) : isPowerOfTwo hmax (2 ^ h) = true :=
  isPowerOfTwo_iff.2 ⟨h, hh, rfl⟩

/-- A 64-bit length is a power of two exactly when it is one of the first 64 (R203 for BITREV). -/
theorem isPowerOfTwo_word (w : Word) : isPowerOfTwo 63 w.toNat = true ↔ ∃ h, w.toNat = 2 ^ h := by
  rw [isPowerOfTwo_iff]
  refine ⟨fun ⟨h, _, he⟩ => ⟨h, he⟩, fun ⟨h, he⟩ => ⟨h, ?_, he⟩⟩
  have := w.isLt
  rw [he] at this
  have := (Nat.pow_lt_pow_iff_right (by omega : 1 < 2)).1 this
  omega

theorem checkSequence_ok {hmax p n words : Nat} :
    checkSequence hmax p n words = .ok () ↔ isPowerOfTwo hmax n = true ∧ p + n ≤ words := by
  unfold checkSequence
  split
  · simp_all
  · split
    · simp; omega
    · simp_all

theorem checkSequence_badLength {hmax p n words : Nat} (h : isPowerOfTwo hmax n = false) :
    checkSequence hmax p n words = .error (.cmdError .badLength 0) := if_pos h

theorem checkSequence_range {hmax p n words : Nat} (h : isPowerOfTwo hmax n = true) (hr : words < p + n) :
    checkSequence hmax p n words = .error (.cmdError .range 0) := by
  simp [checkSequence, h, hr]

theorem checkSequence_error {hmax p n words : Nat} {a : Abort} (h : checkSequence hmax p n words = .error a) :
    a = .cmdError .badLength 0 ∧ isPowerOfTwo hmax n = false ∨
      a = .cmdError .range 0 ∧ isPowerOfTwo hmax n = true ∧ words < p + n := by
  unfold checkSequence at h
  split at h
  · cases h; exact .inl ⟨rfl, ‹_›⟩
  · split at h
    · cases h; exact .inr ⟨rfl, by simpa using ‹¬isPowerOfTwo hmax n = false›, ‹_›⟩
    · cases h

/-- The first word that stops the scan, if there is one: the words before it are written field elements. -/
theorem scanReduced_prefix {m : Memory} {p n j : Nat} (hj : j < n)
    (hpre : ∀ i < j, ∃ v, m.read? (p + i) = some v ∧ v.toNat < Config.modulus) :
    scanReduced m p n = scanReduced m (p + j) (n - j) := by
  induction j generalizing p n with
  | zero => rfl
  | succ j ih =>
    obtain ⟨v, hv, hlt⟩ := hpre 0 (by omega)
    rw [Nat.add_zero] at hv
    obtain ⟨n, rfl⟩ : ∃ k, n = k + 1 := ⟨n - 1, by omega⟩
    have hstep : scanReduced m p (n + 1) = scanReduced m (p + 1) n := by
      rw [scanReduced, Memory.fetch_eq_ok.2 hv]
      exact if_neg (by omega)
    rw [hstep, ih (by omega) (fun i hi => by
      have := hpre (i + 1) (by omega)
      rwa [show p + (i + 1) = p + 1 + i by omega] at this)]
    congr 1 <;> omega

theorem scanReduced_ok {m : Memory} {p n : Nat} :
    scanReduced m p n = .ok () ↔ ∀ i < n, ∃ v, m.read? (p + i) = some v ∧ v.toNat < Config.modulus := by
  induction n generalizing p with
  | zero => simp [scanReduced]
  | succ n ih =>
    have hshift : (∀ i < n, ∃ v, m.read? (p + 1 + i) = some v ∧ v.toNat < Config.modulus) ↔
        ∀ i, 0 < i → i < n + 1 → ∃ v, m.read? (p + i) = some v ∧ v.toNat < Config.modulus := by
      constructor
      · intro h i h0 h1
        have := h (i - 1) (by omega)
        rwa [show p + 1 + (i - 1) = p + i by omega] at this
      · intro h i hi
        have := h (i + 1) (by omega) (by omega)
        rwa [show p + (i + 1) = p + 1 + i by omega] at this
    unfold scanReduced
    split
    · rename_i f hf
      obtain ⟨-, hn⟩ := Memory.fetch_eq_error.1 hf
      simp only [reduceCtorEq, false_iff, not_forall]
      exact ⟨0, by omega, by simp [hn]⟩
    · rename_i v hv
      have hr := Memory.fetch_eq_ok.1 hv
      split
      · simp only [reduceCtorEq, false_iff, not_forall]
        refine ⟨0, by omega, ?_⟩
        simp [hr]; omega
      · rw [ih, hshift]
        constructor
        · intro h i hi
          rcases Nat.eq_zero_or_pos i with rfl | h0
          · exact ⟨v, by simpa using hr, by omega⟩
          · exact h i h0 hi
        · intro h i _ h1; exact h i h1

theorem scanReduced_unreduced {m : Memory} {p n j : Nat} {v : Word} (hj : j < n)
    (hpre : ∀ i < j, ∃ v, m.read? (p + i) = some v ∧ v.toNat < Config.modulus) (hv : m.read? (p + j) = some v)
    (hbad : Config.modulus ≤ v.toNat) : scanReduced m p n = .error (.cmdError .unreduced (wordOf (p + j))) := by
  rw [scanReduced_prefix hj hpre, show n - j = (n - j - 1) + 1 by omega, scanReduced, Memory.fetch_eq_ok.2 hv]
  exact if_pos hbad

theorem scanReduced_unwritten {m : Memory} {p n j : Nat} (hj : j < n)
    (hpre : ∀ i < j, ∃ v, m.read? (p + i) = some v ∧ v.toNat < Config.modulus) (hv : m.read? (p + j) = none) :
    scanReduced m p n = .error (.modelFault (.unwrittenRead (p + j))) := by
  rw [scanReduced_prefix hj hpre, show n - j = (n - j - 1) + 1 by omega, scanReduced,
    Memory.fetch_eq_error.2 ⟨rfl, hv⟩]

theorem scanReduced_error {m : Memory} {p n : Nat} {a : Abort} (h : scanReduced m p n = .error a) :
    ∃ i, p ≤ i ∧ i < p + n ∧ (a = .cmdError .unreduced (wordOf i) ∧ (∃ v, m.read? i = some v ∧ Config.modulus ≤ v.toNat) ∨
      a = .modelFault (.unwrittenRead i) ∧ m.read? i = none) := by
  induction n generalizing p with
  | zero => cases h
  | succ n ih =>
    unfold scanReduced at h
    split at h
    · cases h
      obtain ⟨rfl, hn⟩ := Memory.fetch_eq_error.1 ‹_›
      exact ⟨p, by omega, by omega, .inr ⟨rfl, hn⟩⟩
    · rename_i v hv
      split at h
      · cases h; exact ⟨p, by omega, by omega, .inl ⟨rfl, v, Memory.fetch_eq_ok.1 hv, ‹_›⟩⟩
      · obtain ⟨i, h1, h2, h3⟩ := ih h
        exact ⟨i, by omega, by omega, h3⟩

/-! ## A sequence in DMEM -/

/-- The sequence in bit-reversed order. -/
def permuted (h : Nat) (a : List Nat) : List Nat := (List.range (2 ^ h)).map fun i => a.getD (reverseBits h i) 0

@[simp] theorem permuted_length (h : Nat) (a : List Nat) : (permuted h a).length = 2 ^ h := by simp [permuted]

theorem permuted_getD {h i : Nat} (a : List Nat) (hi : i < 2 ^ h) :
    (permuted h a).getD i 0 = a.getD (reverseBits h i) 0 := by
  rw [List.getD_eq_getElem _ _ (by simpa using hi)]; simp [permuted]

theorem permuted_fieldSeq {h : Nat} {a : List Nat} (hf : FieldSeq a) : FieldSeq (permuted h a) := fun x hx => by
  obtain ⟨i, -, rfl⟩ := List.mem_map.1 hx
  exact hf.getD_lt _

theorem Memory.holds_iff {m : Memory} {p : Nat} {a : List Nat} :
    m.holds p a ↔ FieldSeq a ∧ ∀ i < a.length, m.read? (p + i) = some (wordOf (a.getD i 0)) := by
  constructor
  · intro h
    refine ⟨fieldSeq_of_getD fun i hi => ?_, fun i hi => ?_⟩
    · rw [List.getD_eq_getElem _ _ hi]; exact (h i hi).1
    · rw [List.getD_eq_getElem _ _ hi]; exact (h i hi).2
  · rintro ⟨hf, hr⟩ i hi
    refine ⟨hf _ (List.getElem_mem hi), ?_⟩
    rw [← List.getD_eq_getElem a 0 hi]; exact hr i hi

theorem Memory.holds.fieldSeq {m : Memory} {p : Nat} {a : List Nat} (h : m.holds p a) : FieldSeq a :=
  (Memory.holds_iff.1 h).1

/-- A sequence of written field elements is held as a list. -/
theorem Memory.exists_holds {m : Memory} {p n : Nat}
    (h : ∀ i < n, ∃ v, m.read? (p + i) = some v ∧ v.toNat < Config.modulus) : ∃ a, a.length = n ∧ m.holds p a := by
  induction n generalizing p with
  | zero => exact ⟨[], rfl, fun i hi => absurd hi (by simp)⟩
  | succ n ih =>
    obtain ⟨v, hv, hlt⟩ := h 0 (by omega)
    obtain ⟨a, hl, ha⟩ := ih (p := p + 1) (fun i hi => by
      have := h (i + 1) (by omega)
      rwa [show p + (i + 1) = p + 1 + i by omega] at this)
    refine ⟨v.toNat :: a, by simp [hl], fun i hi => ?_⟩
    cases i with
    | zero => exact ⟨hlt, by simpa [wordOf] using hv⟩
    | succ i =>
      have := ha i (by simpa using hi)
      simpa [show p + (i + 1) = p + 1 + i by omega] using this

/-- Two sequences of the same length held at the same place are the same. -/
theorem Memory.holds_unique {m : Memory} {p : Nat} {a b : List Nat} (ha : m.holds p a) (hb : m.holds p b)
    (hl : a.length = b.length) : a = b := by
  refine List.ext_getElem hl fun i h1 h2 => ?_
  have h := (ha i h1).2.symm.trans (hb i h2).2
  have ha' := lt_trans (ha i h1).1 (by decide : Config.modulus < 2 ^ 64)
  have hb' := lt_trans (hb i h2).1 (by decide : Config.modulus < 2 ^ 64)
  have := congrArg BitVec.toNat (Option.some.inj h)
  rwa [BitVec.toNat_ofNat, BitVec.toNat_ofNat, Nat.mod_eq_of_lt ha', Nat.mod_eq_of_lt hb'] at this

theorem Memory.holds_congr {m m' : Memory} {p : Nat} {a : List Nat} (h : m.holds p a)
    (heq : ∀ i < a.length, m'.read? (p + i) = m.read? (p + i)) : m'.holds p a := fun i hi => by
  rw [heq i hi]; exact h i hi

/-- `bitrev` on a sequence. -/
theorem bitrev_holds {m : Memory} {p h : Nat} {a : List Nat} (hl : a.length = 2 ^ h) (ha : m.holds p a) :
    ∃ m', bitrev m p (2 ^ h) = .ok m' ∧ m'.holds p (permuted h a) ∧ m.sameOutside m' p (2 ^ h) := by
  obtain ⟨hf, hr⟩ := Memory.holds_iff.1 ha
  obtain ⟨m', hm'⟩ := bitrev_of_written (m := m) (p := p) (h := h) fun i hi _ => ⟨_, hr i (by omega)⟩
  obtain ⟨hin, hout⟩ := bitrev_ok hm'
  refine ⟨m', hm', Memory.holds_iff.2 ⟨permuted_fieldSeq hf, fun i hi => ?_⟩, hout⟩
  have hi' : i < 2 ^ h := by simpa using hi
  rw [hin i hi', permuted_getD a hi', hr _ (by rw [hl]; exact reverseBits_lt h i)]

/-- What an in-place transform does to a sequence of field elements. -/
theorem permuteThen_holds {network : List Nat → List Nat} {m : Memory} {p h : Nat} {a : List Nat}
    (hl : a.length = 2 ^ h) (ha : m.holds p a) (hnl : (network (permuted h a)).length = 2 ^ h)
    (hnf : FieldSeq (network (permuted h a))) :
    ∃ m', permuteThen network m p (2 ^ h) = .ok m' ∧ m'.holds p (network (permuted h a)) ∧
      m.sameOutside m' p (2 ^ h) ∧
      ∀ words, m.wf → m.within words → p + 2 ^ h ≤ words → m'.wf ∧ m'.within words := by
  obtain ⟨m₁, hm₁, hh, hout⟩ := bitrev_holds hl ha
  have hload := Memory.loadSeq_of_holds hh
  rw [permuted_length] at hload
  refine ⟨m₁.storeSeq p (network (permuted h a)), by simp [permuteThen, hm₁, hload], Memory.holds_storeSeq _ _ hnf, ?_,
    fun words hw hi hp => ?_⟩
  · have hst := Memory.storeSeq_sameOutside m₁ p (network (permuted h a))
    rw [hnl] at hst
    exact Memory.sameOutside_trans hout hst
  · obtain ⟨hw', hi'⟩ := bitrev_wf hw hi hm₁
    exact ⟨Memory.storeSeq_wf hw' _ _, Memory.storeSeq_within hi' _ _ (by omega)⟩

/-! ## The transform commands -/

/-- A network that maps a sequence of `2^h` field elements to another. -/
def GoodNetwork (network : List Nat → List Nat) : Prop :=
  ∀ (h : Nat) (a : List Nat), a.length = 2 ^ h → FieldSeq a → (network a).length = 2 ^ h ∧ FieldSeq (network a)

theorem ctNetwork_good (r : Nat) : GoodNetwork (ctNetwork r) := fun _ _ hl hf =>
  ⟨(ctNetwork_length r hl hf).trans hl, ctNetwork_fieldSeq r hl hf⟩

theorem gsNetwork_good (r : Nat) : GoodNetwork (gsNetwork r) := fun _ _ hl hf =>
  ⟨(gsNetwork_length r hl hf).trans hl, gsNetwork_fieldSeq r hl hf⟩

theorem inttNetwork_good (r : Nat) : GoodNetwork (inttNetwork r) := fun _ _ hl hf =>
  ⟨(inttNetwork_length r hl hf).trans hl, inttNetwork_fieldSeq r _⟩

theorem checkTransform_ok {m : Memory} {p n words : Nat} :
    checkTransform m p n words = .ok () ↔ ∃ h ≤ 23, n = 2 ^ h ∧ p + n ≤ words ∧ ∃ a, a.length = n ∧ m.holds p a := by
  unfold checkTransform
  split
  · rename_i a hc
    simp only [reduceCtorEq, false_iff]
    rintro ⟨h, hh, hn, hp, -⟩
    have := checkSequence_ok.2 ⟨isPowerOfTwo_iff.2 ⟨h, show h ≤ Config.hmax from hh, hn⟩, hp⟩
    rw [hc] at this; cases this
  · rename_i hc
    obtain ⟨hpow, hp⟩ := checkSequence_ok.1 hc
    obtain ⟨h, hh, hn⟩ := isPowerOfTwo_iff.1 hpow
    rw [scanReduced_ok]
    constructor
    · intro hs; exact ⟨h, hh, hn, hp, Memory.exists_holds hs⟩
    · rintro ⟨-, -, -, -, a, hl, ha⟩ i hi
      have hi' : i < a.length := by omega
      refine ⟨_, (ha i hi').2, ?_⟩
      rw [BitVec.toNat_ofNat, Nat.mod_eq_of_lt (lt_trans (ha i hi').1 (by decide))]
      exact (ha i hi').1

theorem checkTransform_error {m : Memory} {p n words : Nat} {a : Abort} (h : checkTransform m p n words = .error a) :
    a = .cmdError .badLength 0 ∨ a = .cmdError .range 0 ∨ (∃ i, a = .cmdError .unreduced (wordOf i)) ∨
      ∃ i, p ≤ i ∧ i < p + n ∧ p + n ≤ words ∧ a = .modelFault (.unwrittenRead i) ∧ m.read? i = none := by
  unfold checkTransform at h
  split at h
  · cases h
    rcases checkSequence_error ‹_› with ⟨rfl, -⟩ | ⟨rfl, -⟩
    · exact .inl rfl
    · exact .inr (.inl rfl)
  · obtain ⟨i, h1, h2, ⟨rfl, -⟩ | ⟨rfl, hn⟩⟩ := scanReduced_error h
    · exact .inr (.inr (.inl ⟨i, rfl⟩))
    · exact .inr (.inr (.inr ⟨i, h1, h2, (checkSequence_ok.1 ‹_›).2, rfl, hn⟩))

/-- A transform of a legal sequence: the one way it can end. -/
theorem transformBody_of_holds {network : List Nat → List Nat} (hg : GoodNetwork network) {s : State} {h : Nat}
    {a : List Nat} (hh : h ≤ 23) (hn : s.seqLength = 2 ^ h) (hp : s.seqStart + s.seqLength ≤ s.dmemWords)
    (hl : a.length = 2 ^ h) (ha : s.dmem.holds s.seqStart a) :
    ∃ m, transformBody network s = .ok (s.setDmem m) ∧ m.holds s.seqStart (network (permuted h a)) ∧
      s.dmem.sameOutside m s.seqStart (2 ^ h) ∧
      (s.dmem.wf → s.dmem.within s.dmemWords → m.wf ∧ m.within s.dmemWords) := by
  have hc : checkTransform s.dmem s.seqStart s.seqLength s.dmemWords = .ok () :=
    checkTransform_ok.2 ⟨h, hh, hn, hp, a, by omega, ha⟩
  obtain ⟨hnl, hnf⟩ := hg h (permuted h a) (permuted_length h a) (permuted_fieldSeq ha.fieldSeq)
  obtain ⟨m, hm, hmh, hout, hwf⟩ := permuteThen_holds hl ha hnl hnf
  refine ⟨m, ?_, hmh, hout, fun hw hi => hwf _ hw hi (by omega)⟩
  rw [transformBody, hc]
  simp only [hn, hm]

theorem transformBody_ok {network : List Nat → List Nat} (hg : GoodNetwork network) {s s' : State}
    (h : transformBody network s = .ok s') :
    ∃ k a m, k ≤ 23 ∧ s.seqLength = 2 ^ k ∧ s.seqStart + s.seqLength ≤ s.dmemWords ∧ a.length = 2 ^ k ∧
      s.dmem.holds s.seqStart a ∧ s' = s.setDmem m ∧ m.holds s.seqStart (network (permuted k a)) ∧
      s.dmem.sameOutside m s.seqStart (2 ^ k) ∧
      (s.dmem.wf → s.dmem.within s.dmemWords → m.wf ∧ m.within s.dmemWords) := by
  have hc : checkTransform s.dmem s.seqStart s.seqLength s.dmemWords = .ok () := by
    unfold transformBody at h
    split at h
    · cases h
    · assumption
  obtain ⟨k, hk, hn, hp, a, hl, ha⟩ := checkTransform_ok.1 hc
  obtain ⟨m, hm, hmh, hout, hwf⟩ := transformBody_of_holds hg hk hn hp (hl.trans hn) ha
  rw [hm] at h
  cases h
  exact ⟨k, a, m, hk, hn, hp, hl.trans hn, ha, rfl, hmh, hout, hwf⟩

theorem transformBody_error {network : List Nat → List Nat} (hg : GoodNetwork network) {s : State} {a : Abort}
    (h : transformBody network s = .error a) : checkTransform s.dmem s.seqStart s.seqLength s.dmemWords = .error a := by
  have h0 := h
  unfold transformBody at h
  split at h
  · cases h; assumption
  · rename_i hc
    obtain ⟨k, hk, hn, hp, b, hl, hb⟩ := checkTransform_ok.1 hc
    obtain ⟨m, hm, -⟩ := transformBody_of_holds hg hk hn hp (hl.trans hn) hb
    rw [hm] at h0; cases h0

/-! ## BITREV -/

theorem bitrevBody_ok {s s' : State} (h : bitrevBody s = .ok s') :
    ∃ k m, s.seqLength = 2 ^ k ∧ s.seqStart + s.seqLength ≤ s.dmemWords ∧
      bitrev s.dmem s.seqStart (2 ^ k) = .ok m ∧ s' = s.setDmem m := by
  unfold bitrevBody at h
  split at h
  · cases h
  · split at h
    · cases h
    · rename_i hc _ m hm
      cases h
      obtain ⟨hpow, hp⟩ := checkSequence_ok.1 hc
      obtain ⟨k, -, hk⟩ := isPowerOfTwo_iff.1 hpow
      exact ⟨k, m, hk, hp, by rw [← hk]; exact hm, rfl⟩

theorem bitrevBody_error {s : State} {a : Abort} (h : bitrevBody s = .error a) :
    a = .cmdError .badLength 0 ∧ isPowerOfTwo 63 s.seqLength = false ∨
      a = .cmdError .range 0 ∧ isPowerOfTwo 63 s.seqLength = true ∧ s.dmemWords < s.seqStart + s.seqLength ∨
      ∃ i, s.seqStart ≤ i ∧ i < s.seqStart + s.seqLength ∧ s.seqStart + s.seqLength ≤ s.dmemWords ∧
        a = .modelFault (.unwrittenRead i) ∧ s.dmem.read? i = none := by
  unfold bitrevBody at h
  split at h
  · cases h
    rcases checkSequence_error ‹_› with h | h
    · exact .inl h
    · exact .inr (.inl h)
  · rename_i hc
    split at h
    · rename_i f hf
      cases h
      obtain ⟨hpow, hp⟩ := checkSequence_ok.1 hc
      obtain ⟨k, -, hk⟩ := isPowerOfTwo_iff.1 hpow
      rw [hk] at hf
      obtain ⟨i, hi, -, rfl, hn⟩ := bitrev_eq_error hf
      exact .inr (.inr ⟨_, by omega, by omega, hp, rfl, hn⟩)
    · cases h

theorem bitrevBody_of_legal {s : State} {k : Nat} {m : Memory} (hn : s.seqLength = 2 ^ k)
    (hp : s.seqStart + s.seqLength ≤ s.dmemWords) (hb : bitrev s.dmem s.seqStart (2 ^ k) = .ok m) :
    bitrevBody s = .ok (s.setDmem m) := by
  have hpow : isPowerOfTwo 63 s.seqLength = true := (isPowerOfTwo_word s.len).2 ⟨k, hn⟩
  rw [bitrevBody, checkSequence_ok.2 ⟨hpow, hp⟩]
  simp only [hn, hb]

/-! ## Every command -/

/-- The body of each command, so that a fact about all commands is one about bodies. -/
def body (i : Instr) (s : State) : Except Abort State :=
  match i with
  | .powmod => powmodBody s
  | .bitrev => bitrevBody s
  | .nttCt => transformBody (ctNetwork s.root) s
  | .nttGs => transformBody (gsNetwork s.root) s
  | .intt => transformBody (inttNetwork s.root) s

theorem exec_eq_body (i : Instr) (s : State) : exec i s = finishCommand s (body i s) := by cases i <;> rfl

/-- What a command's body leaves when it succeeds. -/
theorem body_ok {i : Instr} {s s' : State} (h : body i s = .ok s') :
    (i = .powmod ∧ s.powModulus ≠ 0 ∧
      s' = s.setResult (wordOf (powmod s.powBase s.powExponent s.powModulus))) ∨
    (i ≠ .powmod ∧ ∃ m, s' = s.setDmem m ∧ s.dmem.sameOutside m s.seqStart s.seqLength ∧
      s.seqStart + s.seqLength ≤ s.dmemWords ∧
      (s.dmem.wf → s.dmem.within s.dmemWords → m.wf ∧ m.within s.dmemWords)) := by
  have transform : ∀ network, GoodNetwork network → transformBody network s = .ok s' → ∃ m, s' = s.setDmem m ∧
      s.dmem.sameOutside m s.seqStart s.seqLength ∧ s.seqStart + s.seqLength ≤ s.dmemWords ∧
      (s.dmem.wf → s.dmem.within s.dmemWords → m.wf ∧ m.within s.dmemWords) := fun network hg h => by
    obtain ⟨k, a, m, -, hn, hp, -, -, rfl, -, hout, hwf⟩ := transformBody_ok hg h
    exact ⟨m, rfl, by rw [hn]; exact hout, hp, hwf⟩
  cases i with
  | powmod =>
    simp only [body, powmodBody] at h
    split at h
    · cases h
    · cases h; exact .inl ⟨rfl, ‹_›, rfl⟩
  | bitrev =>
    obtain ⟨k, m, hn, hp, hb, rfl⟩ := bitrevBody_ok h
    exact .inr ⟨by simp, m, rfl, by rw [hn]; exact (bitrev_ok hb).2, hp, fun hw hi => bitrev_wf hw hi hb⟩
  | nttCt => exact .inr ⟨by simp, transform _ (ctNetwork_good _) h⟩
  | nttGs => exact .inr ⟨by simp, transform _ (gsNetwork_good _) h⟩
  | intt => exact .inr ⟨by simp, transform _ (inttNetwork_good _) h⟩

/-- How a command's body ends early: a command error, with ERRINFO 0 but for UNREDUCED, or a read of an unwritten word of
its sequence. -/
theorem body_error {i : Instr} {s : State} {a : Abort} (h : body i s = .error a) :
    (∃ c info, a = .cmdError c info ∧ c ≠ .illegalCmd ∧ (c ≠ .unreduced → info = 0)) ∨
    ∃ k, s.seqStart ≤ k ∧ k < s.seqStart + s.seqLength ∧ s.seqStart + s.seqLength ≤ s.dmemWords ∧
      a = .modelFault (.unwrittenRead k) ∧ s.dmem.read? k = none := by
  have transform : ∀ network, GoodNetwork network → transformBody network s = .error a →
      (∃ c info, a = .cmdError c info ∧ c ≠ .illegalCmd ∧ (c ≠ .unreduced → info = 0)) ∨
      ∃ k, s.seqStart ≤ k ∧ k < s.seqStart + s.seqLength ∧ s.seqStart + s.seqLength ≤ s.dmemWords ∧
        a = .modelFault (.unwrittenRead k) ∧ s.dmem.read? k = none := fun network hg h => by
    rcases checkTransform_error (transformBody_error hg h) with rfl | rfl | ⟨k, rfl⟩ | h
    · exact .inl ⟨_, _, rfl, by simp, fun _ => rfl⟩
    · exact .inl ⟨_, _, rfl, by simp, fun _ => rfl⟩
    · exact .inl ⟨_, _, rfl, by simp, fun h => absurd rfl h⟩
    · exact .inr h
  cases i with
  | powmod =>
    simp only [body, powmodBody] at h
    split at h
    · cases h; exact .inl ⟨_, _, rfl, by simp, fun _ => rfl⟩
    · cases h
  | bitrev =>
    rcases bitrevBody_error h with ⟨rfl, -⟩ | ⟨rfl, -⟩ | h
    · exact .inl ⟨_, _, rfl, by simp, fun _ => rfl⟩
    · exact .inl ⟨_, _, rfl, by simp, fun _ => rfl⟩
    · exact .inr h
  | nttCt => exact transform _ (ctNetwork_good _) h
  | nttGs => exact transform _ (gsNetwork_good _) h
  | intt => exact transform _ (inttNetwork_good _) h

/-! ## Through exec -/

theorem exec_of_error {i : Instr} {s : State} {c : ErrCode} {info : Word} (h : body i s = .error (.cmdError c info)) :
    exec i s = .next (s.cmdError c info) := by
  rw [exec_eq_body, h]; rfl

/-- The three transform commands run one good network each. -/
theorem body_transform {i : Instr} (s : State) (hi : i = .nttCt ∨ i = .nttGs ∨ i = .intt) :
    ∃ network, GoodNetwork network ∧ body i s = transformBody network s := by
  rcases hi with rfl | rfl | rfl
  · exact ⟨_, ctNetwork_good _, rfl⟩
  · exact ⟨_, gsNetwork_good _, rfl⟩
  · exact ⟨_, inttNetwork_good _, rfl⟩

/-- BITREV completes when `bitrev` does. -/
theorem exec_bitrev_of {s : State} {h : Nat} {m : Memory} (hn : s.len.toNat = 2 ^ h)
    (hp : s.base.toNat + 2 ^ h ≤ s.dmemsz.toNat) (hm : bitrev s.dmem s.base.toNat (2 ^ h) = .ok m) :
    exec .bitrev s = .next { s with dmem := m, status := 0x2, pending := false } := by
  have hb := bitrevBody_of_legal (s := s) (k := h) (m := m) hn (by unfold State.seqStart State.seqLength State.dmemWords; omega) hm
  rw [exec_eq_body, show body .bitrev s = bitrevBody s from rfl, hb]; rfl

/-- A transform of a legal sequence completes with the network's values. -/
theorem exec_transform {i : Instr} {network : List Nat → List Nat} (hg : GoodNetwork network) {s : State} {h : Nat}
    {a : List Nat} (hi : body i s = transformBody network s) (hh : h ≤ 23) (hn : s.len.toNat = 2 ^ h)
    (hp : s.base.toNat + 2 ^ h ≤ s.dmemsz.toNat) (hl : a.length = 2 ^ h) (ha : s.dmem.holds s.base.toNat a) :
    ∃ m : Memory, exec i s = .next { s with dmem := m, status := 0x2, pending := false } ∧
      m.holds s.base.toNat (network (permuted h a)) ∧ s.dmem.sameOutside m s.base.toNat (2 ^ h) ∧
      (s.dmem.wf → s.dmem.within s.dmemsz.toNat → m.wf ∧ m.within s.dmemsz.toNat) := by
  obtain ⟨m, hm, h1, h2, h3⟩ := transformBody_of_holds hg (s := s) hh hn
    (by unfold State.seqStart State.seqLength State.dmemWords; omega) hl ha
  refine ⟨m, ?_, h1, h2, h3⟩
  rw [exec_eq_body, hi, hm]; rfl

theorem Memory.holds.read? {m : Memory} {p : Nat} {a : List Nat} (h : m.holds p a) {i : Nat} (hi : i < a.length) :
    m.read? (p + i) = some (wordOf (a.getD i 0)) := (Memory.holds_iff.1 h).2 i hi

end Sys2Proof.Machine
end

