-- ==== Sys2Proof/Laws/Decode.lean ====
section
/-! SUPPORT. The decoder read the other way round: the one word of each command. -/

namespace Sys2Proof

theorem splitWord_op (c : Word) : (splitWord c).op.toNat = c.toNat % 16 := by simp [splitWord]
theorem splitWord_var (c : Word) : (splitWord c).var.toNat = c.toNat / 16 % 2 := by
  simp [splitWord, Nat.shiftRight_eq_div_pow]
theorem splitWord_rsv (c : Word) : (splitWord c).rsv.toNat = c.toNat / 32 := by
  have := c.isLt
  simp [splitWord, Nat.shiftRight_eq_div_pow]; omega

theorem word_eq_iff {n : Nat} {a b : BitVec n} : a = b ↔ a.toNat = b.toNat := BitVec.toNat_inj.symm

/-- A word decodes to an instruction exactly when it is the instruction's word (R77). -/
theorem decode_eq_ok (c : Word) (i : Instr) : decode c = .ok i ↔ c = encode i := by
  have h1 := splitWord_op c
  have h2 := splitWord_var c
  have h3 := splitWord_rsv c
  constructor
  · intro h
    have e1 : (encode Instr.powmod).toNat = 1 := by decide
    have e2 : (encode Instr.bitrev).toNat = 2 := by decide
    have e3 : (encode Instr.nttCt).toNat = 3 := by decide
    have e4 : (encode Instr.nttGs).toNat = 19 := by decide
    have e5 : (encode Instr.intt).toNat = 4 := by decide
    rw [word_eq_iff]
    simp only [decode, ne_eq, word_eq_iff, h1, h2, h3, BitVec.ofNat_eq_ofNat, BitVec.toNat_ofNat, Nat.reducePow, Nat.reduceMod, ite_not] at h
    split at h
    · split at h
      · split at h
        · cases h; omega
        · cases h
      · split at h
        · split at h
          · cases h; omega
          · cases h
        · split at h
          · split at h <;> cases h <;> omega
          · split at h
            · split at h
              · cases h; omega
              · cases h
            · cases h
    · cases h
  · rintro rfl; cases i <;> decide

end Sys2Proof
end

