-- ==== Sys2Proof/Laws/Loops.lean ====
section
/-! SUPPORT. The rules' in-place loops of Safety (R131, R140, R143, R170) compute what the machine's list networks do:
the law behind log 12. -/

namespace Sys2Proof.Machine

theorem put_same (D : Nat → Nat) (i v) : put D i v i = v := by simp [put]
theorem put_other (D : Nat → Nat) {i k : Nat} (v) (h : k ≠ i) : put D i v k = D k := by simp [put, h]

theorem loopSwap_left (D) (x y : Nat) : loopSwap D x y x = D y := by
  unfold loopSwap; by_cases h : x = y
  · subst h; simp [put]
  · simp [put, h]
theorem loopSwap_right (D) (x y : Nat) : loopSwap D x y y = D x := by simp [loopSwap, put]
theorem loopSwap_other (D) {x y k : Nat} (h1 : k ≠ x) (h2 : k ≠ y) : loopSwap D x y k = D k := by simp [loopSwap, put, h1, h2]

/-- One round of the loop of R131. -/
def swapStep (p h : Nat) (D : Nat → Nat) (i : Nat) : Nat → Nat :=
  if i < (revtable (2^h)).getD i 0 then loopSwap D (p + i) (p + (revtable (2^h)).getD i 0) else D

/-- The rounds still to come exchange exactly the pairs they meet. -/
theorem swapLoop_eq (p h : Nat) : ∀ (len q : Nat) (D : Nat → Nat), q + len = 2 ^ h → ∀ i < 2 ^ h,
    ((List.range' q len).foldl (swapStep p h) D) (p + i) =
      if q ≤ i ∧ q ≤ reverseBits h i then D (p + reverseBits h i) else D (p + i) := by
  intro len
  induction len with
  | zero => intro q D hq i hi; simp; omega
  | succ len ih =>
    intro q D hq i hi
    have hql : q < 2 ^ h := by omega
    have hrq := reverseBits_lt h q
    have hri := reverseBits_lt h i
    have hrr := reverseBits_reverseBits hi
    have hrrq := reverseBits_reverseBits hql
    rw [List.range'_succ, List.foldl_cons, ih (q + 1) _ (by omega) i hi]
    unfold swapStep; rw [revtable_getD hql]
    have iff1 : reverseBits h i = q ↔ i = reverseBits h q := ⟨fun h => by rw [← h, hrr], fun h => by rw [h, hrrq]⟩
    by_cases c1 : i = q
    · subst c1
      rw [if_neg (by omega)]
      split
      · rw [loopSwap_left, if_pos (by omega)]
      · split
        · have : reverseBits h i = i := by omega
          rw [this]
        · rfl
    · by_cases c2 : reverseBits h i = q
      · have c3 := iff1.1 c2
        rw [if_neg (by omega)]
        by_cases c4 : q < reverseBits h q
        · rw [if_pos c4, c3, loopSwap_right, hrrq, if_pos (by omega)]
        · rw [if_neg c4, if_neg (by omega)]
      · have c3 : ¬ i = reverseBits h q := fun h => c2 (iff1.2 h)
        have c5 : reverseBits h i ≠ reverseBits h q := fun hc => c1 (by rw [← hrr, hc, hrrq])
        have e1 : ∀ D', (D' = if q < reverseBits h q then loopSwap D (p + q) (p + reverseBits h q) else D) →
            D' (p + i) = D (p + i) ∧ D' (p + reverseBits h i) = D (p + reverseBits h i) := by
          rintro D' rfl
          split
          · exact ⟨loopSwap_other _ (by omega) (by omega), loopSwap_other _ (by omega) (by omega)⟩
          · exact ⟨rfl, rfl⟩
        obtain ⟨e2, e3⟩ := e1 _ rfl
        rw [e2, e3]
        by_cases c6 : q ≤ i ∧ q ≤ reverseBits h i
        · rw [if_pos c6, if_pos (by omega)]
        · rw [if_neg c6, if_neg (by omega)]

/-- DMEM, given as a function, holds the list from index `p`. -/
def agrees (D : Nat → Nat) (p : Nat) (a : List Nat) : Prop := ∀ i < a.length, D (p + i) = a.getD i 0

theorem loopBitrev_agrees {D : Nat → Nat} {p h : Nat} {a : List Nat} (hl : a.length = 2 ^ h) (ha : agrees D p a) :
    agrees (loopBitrev p (2 ^ h) D) p (permuted h a) := by
  intro i hi
  rw [permuted_length] at hi
  rw [permuted_getD a hi]
  have := swapLoop_eq p h (2 ^ h) 0 D (by omega) i hi
  rw [← List.range_eq_range'] at this
  refine (show loopBitrev p (2 ^ h) D (p + i) = _ from this).trans ?_
  rw [if_pos (by omega)]
  exact ha _ (by rw [hl]; exact reverseBits_lt h i)

/-! ## One stage, for any butterfly -/
/-- A butterfly with upper output `up` and lower output `lo`, and the running twiddle. -/
def butterfly (up lo : Nat → Nat → Nat → Nat) (K m base : Nat) (Dw : (Nat → Nat) × Nat) (j : Nat) : (Nat → Nat) × Nat :=
  let u := Dw.1 (K + j)
  let t := Dw.1 (K + j + m)
  (put (put Dw.1 (K + j) (up Dw.2 u t)) (K + j + m) (lo Dw.2 u t), mulM Dw.2 base)

/-- The first `j` butterflies of one window. -/
theorem butterflies_eq (up lo : Nat → Nat → Nat → Nat) (K m base : Nat) (D : Nat → Nat) : ∀ j ≤ m,
    let r := (List.range j).foldl (butterfly up lo K m base) (D, 1)
    r.2 = base ^ j % Config.modulus ∧
    (∀ t < j, r.1 (K + t) = up (base ^ t % Config.modulus) (D (K + t)) (D (K + t + m)) ∧
      r.1 (K + t + m) = lo (base ^ t % Config.modulus) (D (K + t)) (D (K + t + m))) ∧
    ∀ x, x < K ∨ (K + j ≤ x ∧ x < K + m) ∨ K + m + j ≤ x → r.1 x = D x := by
  intro j
  induction j with
  | zero => intro _; exact ⟨by rw [pow_zero]; rfl, fun t ht => absurd ht (by omega), fun x _ => rfl⟩
  | succ j ih =>
    intro hj
    obtain ⟨h1, h2, h3⟩ := ih (by omega)
    simp only [List.range_succ, List.foldl_append, List.foldl_cons, List.foldl_nil]
    generalize (List.range j).foldl (butterfly up lo K m base) (D, 1) = r at h1 h2 h3
    obtain ⟨E, w⟩ := r
    simp only at h1 h2 h3
    simp only [butterfly]
    have e1 := h3 (K + j) (by omega)
    have e2 := h3 (K + j + m) (by omega)
    rw [e1, e2, h1]
    refine ⟨?_, fun t ht => ?_, fun x hx => ?_⟩
    · rw [mulM, Nat.mod_mul_mod, pow_succ]
    · by_cases c : t = j
      · subst c
        refine ⟨?_, put_same _ _ _⟩
        rw [put_other _ _ (by omega), put_same]
      · obtain ⟨h4, h5⟩ := h2 t (by omega)
        refine ⟨?_, ?_⟩
        · rw [put_other _ _ (by omega), put_other _ _ (by omega)]; exact h4
        · rw [put_other _ _ (by omega), put_other _ _ (by omega)]; exact h5
    · rw [put_other _ _ (by omega), put_other _ _ (by omega)]; exact h3 x (by omega)

/-- All butterflies of window `q`. -/
def windowStep (up lo : Nat → Nat → Nat → Nat) (p m base : Nat) (D : Nat → Nat) (q : Nat) : Nat → Nat :=
  ((List.range m).foldl (butterfly up lo (p + q * (2 * m)) m base) (D, 1)).1

/-- The first `c` windows of a stage. -/
theorem windows_eq (up lo : Nat → Nat → Nat → Nat) (p m base : Nat) (D : Nat → Nat) : ∀ c,
    let E := (List.range c).foldl (windowStep up lo p m base) D
    (∀ q < c, ∀ j < m, E (p + (q * (2 * m) + j)) = up (base ^ j % Config.modulus) (D (p + (q * (2 * m) + j))) (D (p + (q * (2 * m) + m + j))) ∧
      E (p + (q * (2 * m) + m + j)) = lo (base ^ j % Config.modulus) (D (p + (q * (2 * m) + j))) (D (p + (q * (2 * m) + m + j)))) ∧
    ∀ x, x < p ∨ p + c * (2 * m) ≤ x → E x = D x := by
  intro c
  induction c with
  | zero => exact ⟨fun q hq => absurd hq (by omega), fun _ _ => rfl⟩
  | succ c ih =>
    obtain ⟨h1, h2⟩ := ih
    simp only [List.range_succ, List.foldl_append, List.foldl_cons, List.foldl_nil]
    generalize (List.range c).foldl (windowStep up lo p m base) D = E at h1 h2
    obtain ⟨-, g2, g3⟩ := butterflies_eq up lo (p + c * (2 * m)) m base E m (le_refl m)
    have hc : (c + 1) * (2 * m) = c * (2 * m) + 2 * m := by ring
    refine ⟨fun q hq j hj => ?_, fun x hx => ?_⟩
    · by_cases cq : q = c
      · subst cq
        obtain ⟨a1, a2⟩ := g2 j hj
        have e1 : p + (q * (2 * m) + j) = p + q * (2 * m) + j := by omega
        have e2 : p + (q * (2 * m) + m + j) = p + q * (2 * m) + j + m := by omega
        rw [← h2 (p + (q * (2 * m) + j)) (by omega), ← h2 (p + (q * (2 * m) + m + j)) (by omega)]
        rw [e1, e2]
        exact ⟨a1, a2⟩
      · have hq' : q + 1 ≤ c := by omega
        have : (q + 1) * (2 * m) ≤ c * (2 * m) := Nat.mul_le_mul_right _ hq'
        have hq2 : (q + 1) * (2 * m) = q * (2 * m) + 2 * m := by ring
        obtain ⟨a1, a2⟩ := h1 q (by omega) j hj
        exact ⟨(g3 _ (by omega)).trans a1, (g3 _ (by omega)).trans a2⟩
    · exact (g3 x (by omega)).trans (h2 x (by omega))

theorem agrees_of_windows {E : Nat → Nat} {p m count : Nat} {b : List Nat} (hm : 0 < m) (hb : b.length = count * (2 * m))
    (h : ∀ q < count, ∀ j < m, E (p + (q * (2 * m) + j)) = b.getD (q * (2 * m) + j) 0 ∧
      E (p + (q * (2 * m) + m + j)) = b.getD (q * (2 * m) + m + j) 0) : agrees E p b := by
  intro i hi
  obtain ⟨q, hq, j, hj, rfl | rfl⟩ := index_cases hm (by rw [← hb]; exact hi)
  · exact (h q hq j hj).1
  · exact (h q hq j hj).2

theorem window_index_lt {q count m j : Nat} (hq : q < count) (hj : j < 2 * m) : q * (2 * m) + j < count * (2 * m) := by
  have h2 : (q + 1) * (2 * m) ≤ count * (2 * m) := Nat.mul_le_mul_right _ hq
  have h3 : (q + 1) * (2 * m) = q * (2 * m) + 2 * m := by ring
  omega

theorem loopCtStage_agrees {D : Nat → Nat} {p m count r : Nat} {a : List Nat} (hm : 0 < m) (ha : a.length = count * (2 * m))
    (hag : agrees D p a) : agrees (loopCtStage p a.length r (2 * m) D) p (ctStage r (2 * m) a) := by
  have hE : loopCtStage p a.length r (2 * m) D =
      (List.range count).foldl (windowStep (fun w u t => addM u (mulM w t)) (fun w u t => subM u (mulM w t)) p m (stageRoot r (2 * m))) D := by
    unfold loopCtStage
    rw [ha, Nat.mul_div_cancel _ (by omega), Nat.mul_div_cancel_left _ (by omega : 0 < 2)]
    rfl
  rw [hE]
  obtain ⟨g1, -⟩ := windows_eq (fun w u t => addM u (mulM w t)) (fun w u t => subM u (mulM w t)) p m (stageRoot r (2 * m)) D count
  refine agrees_of_windows hm ((ctStage_length r hm ha).trans ha) fun q hq j hj => ?_
  obtain ⟨a1, a2⟩ := g1 q hq j hj
  have i1 := window_index_lt (m := m) (j := j) hq (by omega)
  have i2 := window_index_lt (m := m) (j := m + j) hq (by omega)
  have b1 := hag (q * (2 * m) + j) (by omega)
  have b2 := hag (q * (2 * m) + m + j) (by omega)
  rw [ctStage_upper r hq hj ha, ctStage_lower r hq hj ha]
  exact ⟨by rw [a1, b1, b2], by rw [a2, b1, b2]⟩

theorem loopGsStage_agrees {D : Nat → Nat} {p m count base : Nat} {a : List Nat} (hm : 0 < m) (ha : a.length = count * (2 * m))
    (hag : agrees D p a) : agrees (loopGsStage p a.length base m D) p (gsStage base m a) := by
  have hE : loopGsStage p a.length base m D =
      (List.range count).foldl (windowStep (fun w u t => addM u t) (fun w u t => mulM w (subM u t)) p m base) D := by
    unfold loopGsStage
    rw [ha, Nat.mul_div_cancel _ (by omega)]
    rfl
  rw [hE]
  obtain ⟨g1, -⟩ := windows_eq (fun w u t => addM u t) (fun w u t => mulM w (subM u t)) p m base D count
  refine agrees_of_windows hm ((gsStage_length base hm ha).trans ha) fun q hq j hj => ?_
  obtain ⟨a1, a2⟩ := g1 q hq j hj
  have i1 := window_index_lt (m := m) (j := j) hq (by omega)
  have i2 := window_index_lt (m := m) (j := m + j) hq (by omega)
  have b1 := hag (q * (2 * m) + j) (by omega)
  have b2 := hag (q * (2 * m) + m + j) (by omega)
  rw [gsStage_upper base hq hj ha, gsStage_lower base hq hj ha]
  exact ⟨by rw [a1, b1, b2], by rw [a2, b1, b2]⟩

theorem loopCtWhile_agrees {p r : Nat} : ∀ (k fuel d : Nat) (D : Nat → Nat) (a : List Nat), k ≤ fuel → a.length = 2 ^ (d + k) →
    agrees D p a → agrees (loopCtWhile p (2 ^ (d + k)) r fuel (2 ^ (d + 1)) D) p (ctStages r k (2 ^ (d + 1)) a) := by
  intro k
  induction k with
  | zero =>
    intro fuel d D a _ ha h
    cases fuel with
    | zero => exact h
    | succ fuel =>
      rw [Nat.add_zero, loopCtWhile, if_neg (by
        have : 2 ^ (d + 1) = 2 * 2 ^ d := by rw [pow_succ, Nat.mul_comm]
        have := Nat.two_pow_pos d
        omega)]; exact h
  | succ k ih =>
    intro fuel d D a hk ha h
    obtain ⟨fuel, rfl⟩ : ∃ f, fuel = f + 1 := ⟨fuel - 1, by omega⟩
    have hw : 2 ^ (d + 1) = 2 * 2 ^ d := by rw [pow_succ, Nat.mul_comm]
    have hc : a.length = 2 ^ k * (2 * 2 ^ d) := by rw [ha, ← hw, ← pow_add]; exact congrArg _ (by omega)
    have hle : 2 ^ (d + 1) ≤ 2 ^ (d + (k + 1)) := Nat.pow_le_pow_right (by omega) (by omega)
    have hst := loopCtStage_agrees (r := r) (Nat.two_pow_pos d) hc h
    have hsl := ctStage_length r (Nat.two_pow_pos d) hc
    rw [← hw] at hst hsl
    rw [ha] at hst
    rw [loopCtWhile, if_pos hle, ctStages]
    have e1 : d + (k + 1) = d + 1 + k := by omega
    have e2 : 2 * 2 ^ (d + 1) = 2 ^ (d + 1 + 1) := by rw [pow_succ 2 (d + 1), Nat.mul_comm]
    rw [e2]
    have := ih fuel (d + 1) (loopCtStage p (2 ^ (d + (k + 1))) r (2 ^ (d + 1)) D) (ctStage r (2 ^ (d + 1)) a) (by omega)
      (by rw [hsl, ha, e1]) hst
    rw [← e1] at this
    exact this

theorem loopGsWhile_agrees {p : Nat} {n : Nat} : ∀ (k fuel base c : Nat) (D : Nat → Nat) (a : List Nat), k ≤ fuel → a.length = c * 2 ^ k → a.length = n →
    agrees D p a → agrees (loopGsWhile p n fuel base (2 ^ k / 2) D) p (gsStages k base (2 ^ k / 2) a) := by
  intro k
  induction k with
  | zero =>
    intro fuel base c D a _ ha hn h
    cases fuel with
    | zero => exact h
    | succ fuel => rw [loopGsWhile, if_neg (by decide)]; exact h
  | succ k ih =>
    intro fuel base c D a hk ha hn h
    obtain ⟨fuel, rfl⟩ : ∃ f, fuel = f + 1 := ⟨fuel - 1, by omega⟩
    have hm : 2 ^ (k + 1) / 2 = 2 ^ k := by rw [pow_succ]; omega
    have hc : a.length = c * (2 * 2 ^ k) := by rw [ha, pow_succ, Nat.mul_comm (2 ^ k)]
    have hpos := Nat.two_pow_pos k
    have hst := loopGsStage_agrees (base := base) hpos hc h
    have hsl := gsStage_length base hpos hc
    rw [hm, loopGsWhile, if_pos (by omega), gsStages]
    rw [hn] at hst
    exact ih fuel (mulM base base) (c * 2) _ _ (by omega) (by rw [hsl, hc]; ring) (by rw [hsl, hn]) hst

theorem loopNttCt_agrees {D : Nat → Nat} {p h r : Nat} {a : List Nat} (hh : h ≤ 23) (hl : a.length = 2 ^ h) (ha : agrees D p a) :
    agrees (loopNttCt p (2 ^ h) r D) p (ctNetwork r (permuted h a)) := by
  have hb := loopBitrev_agrees hl ha
  have := loopCtWhile_agrees (p := p) (r := r) h 24 0 _ _ (by omega) (by rw [permuted_length, Nat.zero_add]) hb
  rw [ctNetwork, permuted_length, Nat.log2_two_pow]
  rw [Nat.zero_add] at this
  exact this

theorem loopNttGs_agrees {D : Nat → Nat} {p h r : Nat} {a : List Nat} (hh : h ≤ 23) (hl : a.length = 2 ^ h) (ha : agrees D p a) :
    agrees (loopNttGs p (2 ^ h) r D) p (gsNetwork r (permuted h a)) := by
  have hb := loopBitrev_agrees hl ha
  have := loopGsWhile_agrees (p := p) (n := 2 ^ h) h 24 (stageRoot r (2 ^ h)) 1 _ _ (by omega) (by rw [permuted_length, Nat.one_mul]) (permuted_length h a) hb
  rw [gsNetwork, permuted_length, Nat.log2_two_pow]
  exact this

/-- The last loop of R170. -/
theorem scaleLoop_eq (p c : Nat) (D : Nat → Nat) : ∀ n, let E := (List.range n).foldl (fun D i => put D (p + i) (mulM (D (p + i)) c)) D
    (∀ i < n, E (p + i) = mulM (D (p + i)) c) ∧ ∀ x, x < p ∨ p + n ≤ x → E x = D x := by
  intro n
  induction n with
  | zero => exact ⟨fun i hi => absurd hi (by omega), fun _ _ => rfl⟩
  | succ n ih =>
    obtain ⟨h1, h2⟩ := ih
    simp only [List.range_succ, List.foldl_append, List.foldl_cons, List.foldl_nil]
    generalize (List.range n).foldl (fun D i => put D (p + i) (mulM (D (p + i)) c)) D = E at h1 h2
    refine ⟨fun i hi => ?_, fun x hx => ?_⟩
    · by_cases hc : i = n
      · subst hc; rw [put_same, h2 _ (by omega)]
      · rw [put_other _ _ (by omega)]; exact h1 i (by omega)
    · rw [put_other _ _ (by omega)]; exact h2 x (by omega)

theorem inttNetwork_getD {r i : Nat} {b : List Nat} (hi : i < (ctNetwork (inverse r) b).length) :
    (inttNetwork r b).getD i 0 = mulM ((ctNetwork (inverse r) b).getD i 0) (inverse b.length) := by
  unfold inttNetwork
  rw [List.getD_eq_getElem _ _ (by rw [List.length_map]; exact hi), List.getElem_map, List.getD_eq_getElem _ _ hi]

theorem loopIntt_eq (p n r : Nat) (D) : loopIntt p n r D = (List.range n).foldl (fun D i => put D (p + i) (mulM (D (p + i)) (inverse n))) (loopNttCt p n (inverse r) D) := by
  simp only [loopIntt, inverse]

theorem loopIntt_agrees {D : Nat → Nat} {p h r : Nat} {a : List Nat} (hh : h ≤ 23) (hl : a.length = 2 ^ h) (hf : FieldSeq a) (ha : agrees D p a) :
    agrees (loopIntt p (2 ^ h) r D) p (inttNetwork r (permuted h a)) := by
  have hc := loopNttCt_agrees (r := inverse r) hh hl ha
  have hg := ctNetwork_good (inverse r) h (permuted h a) (permuted_length h a) (permuted_fieldSeq hf)
  have hg2 := inttNetwork_good r h (permuted h a) (permuted_length h a) (permuted_fieldSeq hf)
  intro i hi
  rw [hg2.1] at hi
  have := (scaleLoop_eq p (inverse (2 ^ h)) (loopNttCt p (2 ^ h) (inverse r) D) (2 ^ h)).1 i hi
  rw [loopIntt_eq, inttNetwork_getD (by rw [hg.1]; exact hi), permuted_length, ← hc i (by rw [hg.1]; exact hi)]
  generalize inverse (2 ^ h) = c at *
  exact this

end Sys2Proof.Machine
end

