-- ==== Sys2Proof/Laws/PerInstr.lean ====
section
/-! SUPPORT. Facts about every instruction as syntax, one lemma per constructor. -/

namespace Sys2Proof.Laws.TableWord

/-- The instruction is well formed, and its command word, as the opcode table numbers its bits, decodes to it (R77). -/
def Statement (i : Instr) : Prop := i.wellFormed = true ∧ decodeTableWord 64 (encode i).toNat = some i

theorem powmod : Statement .powmod := ⟨by decide, by decide⟩
theorem bitrev : Statement .bitrev := ⟨by decide, by decide⟩
theorem nttCt : Statement .nttCt := ⟨by decide, by decide⟩
theorem nttGs : Statement .nttGs := ⟨by decide, by decide⟩
theorem intt : Statement .intt := ⟨by decide, by decide⟩

end Sys2Proof.Laws.TableWord
end

