-- ==== Sys2Proof/Laws/Step.lean ====
section
/-! SUPPORT. What one step can do, said once: the engine step, each host transaction, and which agent moves. -/

namespace Sys2Proof.Machine

/-! ## The register window -/

theorem regAt_regOffset (r : RegName) : regAt (regOffset r) = some r := by cases r <;> rfl

theorem regOffset_of_regAt {off : Nat} {r : RegName} (h : regAt off = some r) : off = regOffset r := by
  unfold regAt at h
  split at h <;> first | (cases h; rfl) | cases h

/-- An offset names a register exactly when it is a multiple of 8 up to 0x58 (R54). -/
theorem regAt_isSome_iff (off : Nat) : (regAt off).isSome = true ↔ off % 8 = 0 ∧ off ≤ 0x58 := by
  constructor
  · intro h
    obtain ⟨r, hr⟩ := Option.isSome_iff_exists.1 h
    obtain rfl := regOffset_of_regAt hr
    cases r <;> simp [regOffset]
  · rintro ⟨h8, hle⟩
    obtain ⟨k, rfl⟩ : ∃ k, off = 8 * k := ⟨off / 8, by omega⟩
    have hk : k ≤ 11 := by omega
    interval_cases k <;> rfl

/-! ## The port's checks (R182) -/

/-- A transaction passes when all three checks do. -/
theorem busErrorOf_none {words : Nat} {t : Transaction} :
    busErrorOf words t = none ↔ transactionWidth t = 64 ∧ locationError words t = none ∧ accessError t = none := by
  unfold busErrorOf
  by_cases hw : transactionWidth t = 64
  · rw [if_neg (by simpa using hw)]
    cases hl : locationError words t <;> simp [hw]
  · rw [if_pos hw]; simp [hw]

theorem locationError_register {off : Nat} :
    (if (regAt off).isNone then some BusErrorKind.offset else none) = none ↔ ∃ r, regAt off = some r := by
  cases regAt off <;> simp

theorem locationError_index {words i : Nat} : (if words ≤ i then some BusErrorKind.dmemIndex else none) = none ↔ i < words := by
  simp

theorem busErrorOf_rrd_none {words w off : Nat} (h : busErrorOf words (.rrd w off) = none) :
    w = 64 ∧ ∃ r, regAt off = some r := by
  obtain ⟨hw, hl, -⟩ := busErrorOf_none.1 h
  exact ⟨hw, locationError_register.1 hl⟩

theorem busErrorOf_rwr_none {words w off : Nat} {v : Word} (h : busErrorOf words (.rwr w off v) = none) :
    w = 64 ∧ ∃ r, regAt off = some r ∧ regWritable r = true := by
  obtain ⟨hw, hl, ha⟩ := busErrorOf_none.1 h
  obtain ⟨r, hr⟩ := locationError_register.1 hl
  exact ⟨hw, r, hr, by simpa [accessError, hr] using ha⟩

theorem busErrorOf_mrd_none {words w i : Nat} (h : busErrorOf words (.mrd w i) = none) : w = 64 ∧ i < words := by
  obtain ⟨hw, hl, -⟩ := busErrorOf_none.1 h
  exact ⟨hw, locationError_index.1 hl⟩

theorem busErrorOf_mwr_none {words w i : Nat} {v : Word} (h : busErrorOf words (.mwr w i v) = none) :
    w = 64 ∧ i < words := by
  obtain ⟨hw, hl, -⟩ := busErrorOf_none.1 h
  exact ⟨hw, locationError_index.1 hl⟩

/-! ## One host transaction -/

/-- Everything a transaction can do: a bus error, a read answered, a register written, a DMEM word written. -/
theorem transact_next {s s' : State} {t : Transaction} (h : transact s t = .next s') :
    (∃ k, busErrorOf s.dmemWords t = some k ∧ s' = s.busError k) ∨
    (∃ off r, t = .rrd 64 off ∧ regAt off = some r ∧ s' = s.respond (.value (s.readReg r))) ∨
    (∃ i v, t = .mrd 64 i ∧ i < s.dmemWords ∧ s.dmem.read? i = some v ∧ s' = s.respond (.value v)) ∨
    (∃ off r v, t = .rwr 64 off v ∧ regAt off = some r ∧ regWritable r = true ∧ s' = (s.writeReg r v).respond .written) ∨
    (∃ i v, t = .mwr 64 i v ∧ i < s.dmemWords ∧ s' = (s.setDmem (s.dmem.write i v)).respond .written) := by
  unfold transact at h
  split at h
  · cases h; exact .inl ⟨_, ‹_›, rfl⟩
  · rename_i hnone
    refine .inr ?_
    cases t with
    | rrd w off =>
      obtain ⟨rfl, r, hr⟩ := busErrorOf_rrd_none hnone
      simp only [perform, registerRead, hr] at h
      cases h; exact .inl ⟨off, r, rfl, hr, rfl⟩
    | rwr w off v =>
      obtain ⟨rfl, r, hr, hw⟩ := busErrorOf_rwr_none hnone
      simp only [perform, registerWrite, hr] at h
      cases h; exact .inr (.inr (.inl ⟨off, r, v, rfl, hr, hw, rfl⟩))
    | mrd w i =>
      obtain ⟨rfl, hi⟩ := busErrorOf_mrd_none hnone
      simp only [perform, dmemRead] at h
      split at h
      · cases h; exact .inr (.inl ⟨i, _, rfl, hi, Memory.fetch_eq_ok.1 ‹_›, rfl⟩)
      · cases h
    | mwr w i v =>
      obtain ⟨rfl, hi⟩ := busErrorOf_mwr_none hnone
      simp only [perform, dmemWrite] at h
      cases h; exact .inr (.inr (.inr ⟨i, v, rfl, hi, rfl⟩))

theorem transact_fault {s : State} {t : Transaction} {f : Fault} (h : transact s t = .fault f) :
    ∃ i, t = .mrd 64 i ∧ i < s.dmemWords ∧ f = .unwrittenRead i ∧ s.dmem.read? i = none := by
  unfold transact at h
  split at h
  · cases h
  · rename_i hnone
    cases t with
    | rrd w off =>
      obtain ⟨rfl, r, hr⟩ := busErrorOf_rrd_none hnone
      simp only [perform, registerRead, hr] at h
      cases h
    | rwr w off v =>
      obtain ⟨rfl, r, hr, hw⟩ := busErrorOf_rwr_none hnone
      simp only [perform, registerWrite, hr] at h
      cases h
    | mrd w i =>
      obtain ⟨rfl, hi⟩ := busErrorOf_mrd_none hnone
      simp only [perform, dmemRead] at h
      split at h
      · cases h
      · cases h; exact ⟨i, rfl, hi, Memory.fetch_eq_error.1 ‹_›⟩
    | mwr w i v => simp only [perform, dmemWrite] at h; cases h

theorem transact_ne_refused {s : State} {t : Transaction} {f : Refusal} : transact s t ≠ .refused f := by
  unfold transact
  split
  · simp
  · cases t <;> simp only [perform, registerRead, registerWrite, dmemRead, dmemWrite] <;> (try split) <;> simp

/-! ## Which agent moves (R181, R189) -/

theorem nextMover_engine {s : State} (h : nextMover s = .engine) : s.pending = true := by
  unfold nextMover at h
  split at h <;> simp_all

theorem nextMover_outside {s s' : State} {e : HostEvent} (h : nextMover s = .outside e s') :
    ∃ rest, s.host = e :: rest ∧
      (s.pending = true ∧ notHeld e = true ∧ s.delay ≠ 0 ∧ s' = (s.takeEvent rest).spendDelay ∨
        s.pending = false ∧ s' = s.takeEvent rest) := by
  unfold nextMover at h
  split at h
  · rename_i hp hh
    split at h
    · cases h; exact ⟨_, hh, .inl ⟨hp, (‹_ ∧ _› : _ ∧ _).1, (‹_ ∧ _› : _ ∧ _).2, rfl⟩⟩
    · cases h
  · cases h
  · rename_i hp hh
    cases h; exact ⟨_, hh, .inr ⟨hp, rfl⟩⟩
  · cases h

theorem nextMover_nobody {s : State} (h : nextMover s = .nobody) : s.pending = false ∧ s.host = [] := by
  unfold nextMover at h
  split at h
  · split at h <;> cases h
  · cases h
  · cases h
  · exact ⟨‹_›, ‹_›⟩

/-- While a command is pending, a held event at the head of the queue leaves the engine to move (R181). -/
theorem nextMover_of_held {s : State} {e : HostEvent} {rest : List HostEvent} (hp : s.pending = true)
    (hh : s.host = e :: rest) (hn : notHeld e = false) : nextMover s = .engine := by
  simp [nextMover, hp, hh, hn]

theorem nextMover_of_no_delay {s : State} (hp : s.pending = true) (hd : s.delay = 0) : nextMover s = .engine := by
  unfold nextMover
  split <;> simp_all

theorem nextMover_of_idle {s : State} {e : HostEvent} {rest : List HostEvent} (hp : s.pending = false)
    (hh : s.host = e :: rest) : nextMover s = .outside e (s.takeEvent rest) := by
  simp [nextMover, hp, hh]

/-! ## One step -/

theorem engineStep_next {s t : State} (h : engineStep s = .next t) :
    (∃ e, decode s.cmd = .error e ∧ t = s.cmdError .illegalCmd 0) ∨
    ∃ i, decode s.cmd = .ok i ∧
      ((∃ s', body i s = .ok s' ∧ t = s'.complete) ∨ ∃ c info, body i s = .error (.cmdError c info) ∧ t = s.cmdError c info) := by
  unfold engineStep at h
  split at h
  · cases h; exact .inl ⟨_, ‹_›, rfl⟩
  · rename_i i hi
    rw [exec_eq_body] at h
    exact .inr ⟨i, hi, finishCommand_next h⟩

/-- Everything one step can do (R189). -/
theorem step_next {s t : State} (h : step s = .next t) :
    (s.pending = true ∧ engineStep s = .next t) ∨
    (∃ e rest s', s.host = e :: rest ∧ hostStep s' e = .next t ∧
      (s.pending = true ∧ notHeld e = true ∧ s.delay ≠ 0 ∧ s' = (s.takeEvent rest).spendDelay ∨
        s.pending = false ∧ s' = s.takeEvent rest)) ∨
    (s.pending = false ∧ s.host = [] ∧ t = s) := by
  unfold step at h
  split at h
  · exact .inl ⟨nextMover_engine ‹_›, h⟩
  · rename_i e s' hm
    obtain ⟨rest, hh, hc⟩ := nextMover_outside hm
    exact .inr (.inl ⟨e, rest, s', hh, h, hc⟩)
  · cases h
    obtain ⟨hp, hh⟩ := nextMover_nobody ‹_›
    exact .inr (.inr ⟨hp, hh, rfl⟩)

/-! ## Whose step it is -/

/-- When the engine's turn has come, the step is the engine's (R181, R189). -/
theorem step_of_engineTurn {s : State} (h : s.engineTurn) : step s = engineStep s := by
  obtain ⟨hp, h⟩ := h
  have : nextMover s = .engine := by
    rcases h with h | h
    · exact nextMover_of_no_delay hp h
    · cases hh : s.host with
      | nil => simp [nextMover, hp, hh]
      | cons e rest =>
        obtain ⟨h1, h2⟩ := h e rest hh
        exact nextMover_of_held hp hh (by simp [notHeld, h1, h2 64])
  simp [step, this]

/-- When it is the host's turn, the step is that event's (R189). -/
theorem step_of_hostTurn {s : State} {e rest} (h : s.hostTurn e rest) : step s = hostStep (s.takeEvent rest) e := by
  simp [step, nextMover_of_idle h.1 h.2]

theorem engineStep_of_decode {s : State} {i : Instr} (h : decode s.cmd = .ok i) : engineStep s = exec i s := by
  unfold engineStep; rw [h]

theorem engineStep_of_illegal {s : State} (h : ∀ i, decode s.cmd ≠ .ok i) :
    engineStep s = .next (s.cmdError .illegalCmd 0) := by
  unfold engineStep
  split
  · rfl
  · exact absurd ‹_› (h _)

/-- The registers and marks no engine step changes, and the outcomes STATUS can show after one (R188, R201). -/
theorem engineStep_next_frame {s t : State} (h : engineStep s = .next t) :
    t.pending = false ∧ t.host = s.host ∧ t.responses = s.responses ∧ t.faulted = s.faulted ∧ t.dmemsz = s.dmemsz ∧
    t.cmd = s.cmd ∧ t.base = s.base ∧ t.len = s.len ∧ t.arg0 = s.arg0 ∧ t.arg1 = s.arg1 ∧ t.arg2 = s.arg2 ∧
    (t.status = 0x2 ∨ ∃ c, t.status = statusError c) := by
  rcases engineStep_next h with ⟨e, -, rfl⟩ | ⟨i, -, ⟨s', hs', rfl⟩ | ⟨c, info, -, rfl⟩⟩
  · exact ⟨rfl, rfl, rfl, rfl, rfl, rfl, rfl, rfl, rfl, rfl, rfl, .inr ⟨_, rfl⟩⟩
  · rcases body_ok hs' with ⟨-, -, rfl⟩ | ⟨-, m, rfl, -⟩ <;> exact ⟨rfl, rfl, rfl, rfl, rfl, rfl, rfl, rfl, rfl, rfl, rfl, .inl rfl⟩
  · exact ⟨rfl, rfl, rfl, rfl, rfl, rfl, rfl, rfl, rfl, rfl, rfl, .inr ⟨_, rfl⟩⟩

theorem engineStep_ne_refused {s : State} {r : Refusal} : engineStep s ≠ .refused r := by
  unfold engineStep; split
  · simp
  · rw [exec_eq_body]; exact finishCommand_ne_refused

/-- No step is refused. -/
theorem step_ne_refused {s : State} {r : Refusal} : step s ≠ .refused r := by
  unfold step
  split
  · exact engineStep_ne_refused
  · rename_i e s' _
    cases e
    · exact transact_ne_refused
    · simp [hostStep]
  · simp

/-- While a command is pending, STATUS reads BUSY (R24). -/
theorem status_of_pending {s : State} (hi : s.Inv) (hp : s.pending = true) : s.status = 0x1 := by
  have h := hi.status_legal
  have hb := hi.busy_iff_pending
  rw [hp] at hb
  simp only [legalStatuses, List.mem_cons, List.not_mem_nil, or_false] at h
  rcases h with h | h | h | h | h | h | h | h <;> rw [h] at hb <;> first | exact h | exact absurd hb (by decide)

end Sys2Proof.Machine
end

