-- ==== Sys2Proof/Tests/Slice0.lean ====
section
/-! SUPPORT. Tests of single steps, with expected results taken from the spec (95_test_vectors.md names each vector), the
smoke test of WellFormed, and for every statement with hypotheses a witness that they can be met together. -/

namespace Sys2Proof.Tests

open Sys2Proof.Machine

/-! ## Helpers -/

/-- An idle machine with 64 DMEM words, the words of `a` from index `p` on, and BASE, LEN and ARG0 set to this sequence
and root. -/
def withSeq (p : Nat) (a : List Nat) (root : Nat) : State :=
  { State.reset with
    dmemsz := 64, base := wordOf p, len := wordOf a.length, arg0 := wordOf root, dmem := Memory.storeSeq [] p a }

/-- The same machine with another LEN. -/
def withLen (s : State) (n : Nat) : State := { s with len := wordOf n }

/-- An idle machine with POWMOD's operands set, and 9 in RESULT. -/
def withPow (b e m : Nat) : State :=
  { State.reset with dmemsz := 64, arg0 := wordOf b, arg1 := wordOf e, arg2 := wordOf m, result := 9 }

/-- A machine with the command word `w` latched and the engine about to run it. -/
def latched (s : State) (w : Word) : State := { s with cmd := w, status := 0x1, pending := true }

/-- A latched command with one more host step placed before the engine step, and the events `es` to come. -/
def waiting (w : Word) (es : List HostEvent) : State :=
  { latched (withSeq 0 [1, 2, 3, 4] 3) w with delay := 1, host := es }

/-- An idle machine with one event to come. -/
def asked (s : State) (e : HostEvent) : State := { s with host := [e] }

/-- A 64-bit read of STATUS. -/
def statusRead : HostEvent := .transaction (.rrd 64 0x08)

/-- Whether an outcome is a next state with the property `p`. -/
def goesTo (o : Host.Outcome State Fault Refusal) (p : State → Bool) : Bool :=
  match o with
  | .next t => p t
  | .fault _ => false
  | .refused _ => false

/-- Whether an outcome is the fault of reading the unwritten word `i`. -/
def stopsAt (o : Host.Outcome State Fault Refusal) (i : Nat) : Bool :=
  match o with
  | .fault f => f == .unwrittenRead i
  | .next _ => false
  | .refused _ => false

/-- DMEM, STATUS and the pending bit after a command that succeeded, with the words of `a` from index `p` on. -/
def doneWith (p : Nat) (a : List Nat) (t : State) : Bool :=
  t.dmem == Memory.storeSeq [] p a && t.status == 0x2 && !t.pending

/-- STATUS, ERRINFO and RESULT after an error. -/
def failedWith (status errinfo : Word) (s t : State) : Bool :=
  t == { s with status := status, errinfo := errinfo, pending := false }

/-- What a host port's last answer was. -/
def answered (r : Response) (t : State) : Bool := t.responses.getLast? == some r

/-! ## Decoding: words written out from 30_encoding.md R70-R72 (RSV 63:5, VAR 4, OP 3:0) -/

theorem test_decode_powmod : decode (0#59 ++ 0b0#1 ++ 0b0001#4) = .ok .powmod := by rfl
theorem test_decode_bitrev : decode (0#59 ++ 0b0#1 ++ 0b0010#4) = .ok .bitrev := by rfl
theorem test_decode_nttCt : decode (0#59 ++ 0b0#1 ++ 0b0011#4) = .ok .nttCt := by rfl
theorem test_decode_nttGs : decode (0#59 ++ 0b1#1 ++ 0b0011#4) = .ok .nttGs := by rfl
theorem test_decode_intt : decode (0#59 ++ 0b0#1 ++ 0b0100#4) = .ok .intt := by rfl
/-- V-ERR-1 to V-ERR-8. -/
theorem test_decode_illegal : ∀ w ∈ ([0x0, 0x5, 0xF, 0x11, 0x12, 0x14, 0x23, 0x8000000000000003] : List Nat),
    decodeTableWord 64 w = none := by decide
theorem test_decode_reservedBits : decode 0x23 = .error .reservedBits := by rfl
theorem test_decode_reservedVariant : decode 0x14 = .error .reservedVariant := by rfl
theorem test_decode_reservedOp : decode 0x5 = .error .reservedOp := by rfl
theorem test_encode_words : encode .powmod = 0x1 ∧ encode .bitrev = 0x2 ∧ encode .nttCt = 0x3 ∧ encode .nttGs = 0x13 ∧
    encode .intt = 0x4 := by decide

/-! ## WellFormed: an ill-formed word's fields for each check -/

theorem test_wellFormed_rsv : CmdFields.rsvOk { op := 0x3, var := 0, rsv := 1 } = false := by rfl
theorem test_wellFormed_op : CmdFields.opOk { op := 0x5, var := 0, rsv := 0 } = false := by rfl
theorem test_wellFormed_var : CmdFields.varOk { op := 0x4, var := 1, rsv := 0 } = false := by rfl
theorem test_wellFormed_refuses : ∀ f ∈ ([⟨0x3, 0, 1⟩, ⟨0x0, 0, 0⟩, ⟨0x5, 0, 0⟩, ⟨0x4, 1, 0⟩] : List CmdFields),
    f.wellFormed = false := by decide
theorem test_wellFormed_instr : ∀ i ∈ [Instr.powmod, .bitrev, .nttCt, .nttGs, .intt], i.wellFormed = true := by decide

/-! ## The reduction unit and the tables -/

/-- V-RED-1 to V-RED-10. -/
theorem test_reduction : addM 998244352 998244352 = 998244351 ∧ addM 998244352 1 = 0 ∧ addM 0 0 = 0 ∧
    subM 0 1 = 998244352 ∧ subM 5 5 = 0 ∧ subM 1 998244352 = 2 ∧ mulM 998244352 998244352 = 1 ∧ mulM 0 998244352 = 0 ∧
    mulM 3 332748118 = 1 ∧ mulM 2 499122177 = 1 := by decide
/-- The stage roots of §2.2. -/
theorem test_stageRoot : stageRoot 3 2 = 998244352 ∧ stageRoot 3 4 = 911660635 ∧ stageRoot 3 8 = 372528824 ∧
    stageRoot 3 16 = 929031873 ∧ stageRoot 3 8388608 = 15311432 ∧ stageRoot 332748118 4 = 86583718 := by decide
/-- E3. -/
theorem test_revtable : revtable 8 = [0, 4, 2, 6, 1, 5, 3, 7] ∧ revtable 1 = [0] := by decide

/-! ## The commands, one step each -/

/-- V-POW-17: a 128-bit product. -/
theorem test_powmod_wide : goesTo (step (latched (withPow 18446744073709551614 2 18446744073709551615) 0x1))
    (fun t => t.result == 1 && t.status == 0x2) = true := by decide
/-- V-POW-3: modulus 1 gives 0 with exponent 0 too. -/
theorem test_powmod_one : goesTo (step (latched (withPow 0 0 1) 0x1)) (fun t => t.result == 0) = true := by decide
/-- V-BR-7. -/
theorem test_bitrev : goesTo (step (latched { withSeq 9 [0, 1, 2, 3, 4, 0] 3 with base := 10, len := 4 } 0x2))
    (doneWith 9 [0, 1, 3, 2, 4, 0]) = true := by decide
/-- V-ERR-20: BITREV does not check reduction. -/
theorem test_bitrev_unreduced : goesTo (step (latched (withSeq 0 [998244353, 998244353, 998244353, 998244353] 3) 0x2))
    (doneWith 0 [998244353, 998244353, 998244353, 998244353]) = true := by decide
/-- V-CT-8. -/
theorem test_nttCt : goesTo (step (latched (withSeq 0 [1, 2, 3, 4, 5, 6, 7, 8] 3) 0x3))
    (doneWith 0 [36, 894301004, 346334868, 201631260, 998244349, 796613085, 651909477, 103943341]) = true := by
  decide +kernel
/-- V-CT-12: a root that is a square. -/
theorem test_nttCt_square : goesTo (step (latched (withSeq 0 [1, 2, 3, 4] 4) 0x3))
    (doneWith 0 [10, 998244349, 998244351, 0]) = true := by decide +kernel
/-- V-GS-8. -/
theorem test_nttGs : goesTo (step (latched (withSeq 0 [1, 2, 3, 4, 5, 6, 7, 8] 3) 0x13))
    (doneWith 0 [36, 998244337, 346334868, 651909477, 223575251, 947836536, 50407815, 774669100]) = true := by
  decide +kernel
/-- V-GS-10: root 0. -/
theorem test_nttGs_zero : goesTo (step (latched (withSeq 0 [1, 2, 3, 4] 0) 0x13))
    (doneWith 0 [10, 998244349, 998244352, 998244352]) = true := by decide +kernel
/-- V-INTT-8. -/
theorem test_intt : goesTo (step (latched (withSeq 0 [1, 2, 3, 4, 5, 6, 7, 8] 3) 0x4))
    (doneWith 0 [499122181, 387334550, 455830317, 473918268, 499122176, 524326084, 542414035, 610909802]) = true := by
  decide +kernel
/-- V-INTT-11: root 0. -/
theorem test_intt_zero : goesTo (step (latched (withSeq 0 [1, 2, 3, 4] 0) 0x4))
    (doneWith 0 [499122179, 499122176, 499122176, 499122176]) = true := by decide +kernel

/-! ## Command errors -/

/-- V-ERR-7: bit 5 set. -/
theorem test_illegal : goesTo (step (latched (withPow 3 5 7) 0x23)) (failedWith 0x106 0 (latched (withPow 3 5 7) 0x23)) =
    true := by decide
/-- V-POW-23 and V-ERR-16: RESULT is unchanged. -/
theorem test_modulusZero : goesTo (step (latched (withPow 3 5 0) 0x1)) (fun t => t.status == 0x506 && t.result == 9) =
    true := by decide
/-- V-ERR-11: a length above 2^23. -/
theorem test_badLength : goesTo (step (latched (withLen (withSeq 0 [] 3) 16777216) 0x4)) (fun t => t.status == 0x206) =
    true := by decide
/-- V-BR-10: BITREV has no such bound. -/
theorem test_bitrev_range : goesTo (step (latched (withLen (withSeq 0 [] 3) 16777216) 0x2)) (fun t => t.status == 0x306) =
    true := by decide
/-- V-ERR-13: the sum is exact. -/
theorem test_range : goesTo (step (latched (withLen { withSeq 0 [] 3 with base := 0xFFFFFFFFFFFFFFFF } 2) 0x3))
    (fun t => t.status == 0x306 && t.errinfo == 0) = true := by decide
/-- V-ERR-17: BAD_LENGTH comes before RANGE. -/
theorem test_order_length : goesTo (step (latched (withLen { withSeq 0 [] 3 with base := 0xFFFFFFFFFFFFFFFF } 6) 0x3))
    (fun t => t.status == 0x206) = true := by decide
/-- V-ERR-14: ERRINFO is the DMEM index of the first offender. -/
theorem test_unreduced : goesTo (step (latched (withSeq 4 [0, 1, 998244353, 998244354] 3) 0x3))
    (failedWith 0x406 6 (latched (withSeq 4 [0, 1, 998244353, 998244354] 3) 0x3)) = true := by decide
/-- V-ERR-18: RANGE comes before UNREDUCED. -/
theorem test_order_range : goesTo (step (latched (withLen (withSeq 60 [998244353, 0, 0, 0] 3) 8) 0x3))
    (fun t => t.status == 0x306) = true := by decide
/-- V-ERR-19: an unwritten word at 1 comes before an unreduced one at 2. -/
theorem test_unwritten : stopsAt (step (latched { withLen (withSeq 0 [] 3) 4 with dmem := [(0, 0), (2, 998244353)] } 0x3)) 1 =
    true := by decide

/-! ## The host port -/

/-- V-BUS-1. -/
theorem test_bus_readOnly : goesTo (step (asked State.reset (.transaction (.rwr 64 0x08 5))))
    (fun t => answered (.busError .readOnly) t && t.faulted && t.status == 0) = true := by decide
/-- V-BUS-4. -/
theorem test_bus_offset : goesTo (step (asked State.reset (.transaction (.rrd 64 0x04)))) (answered (.busError .offset)) =
    true := by decide
/-- V-BUS-5. -/
theorem test_bus_index : goesTo (step (asked (withSeq 0 [] 3) (.transaction (.mrd 64 64)))) (answered (.busError .dmemIndex)) =
    true := by decide
/-- V-BUS-6: the width is checked first. -/
theorem test_bus_width : goesTo (step (asked State.reset (.transaction (.rwr 32 0x09 1)))) (answered (.busError .width)) =
    true := by decide
/-- V-BUS-7. -/
theorem test_bus_constants : goesTo (step (asked State.reset (.transaction (.rrd 64 0x48)))) (answered (.value 998244353)) =
    true := by decide
theorem test_bus_dmemsz : goesTo (step (asked (withSeq 0 [] 3) (.transaction (.rrd 64 0x58)))) (answered (.value 64)) =
    true := by decide
/-- V-BUS-8. -/
theorem test_bus_busy : goesTo (step (waiting 0x3 [statusRead])) (fun t => answered (.value 0x1) t && t.pending) = true := by
  decide
/-- V-BUS-9: the read of BASE is held, and the step is the engine's. -/
theorem test_bus_held : goesTo (step (waiting 0x2 [.transaction (.rrd 64 0x10)]))
    (fun t => t.responses == [] && t.status == 0x2 && t.host == [.transaction (.rrd 64 0x10)]) = true := by decide
/-- V-BUS-11. -/
theorem test_bus_unwritten : stopsAt (step (asked (withSeq 0 [] 3) (.transaction (.mrd 64 5)))) 5 = true := by decide
/-- R183: what acceptance leaves. -/
theorem test_accept : goesTo (step (asked { withSeq 0 [] 3 with errinfo := 6 } (.transaction (.rwr 64 0x00 0x23))))
    (fun t => t.cmd == 0x23 && t.status == 0x1 && t.errinfo == 0 && t.pending) = true := by decide
/-- R230: a reset while a command is pending. -/
theorem test_reset : goesTo (step (waiting 0x3 [.reset])) (fun t => !t.pending && t.dmem == [] && t.base == 0 && t.cmd == 0) =
    true := by decide
/-- P1's second line group: `inv 3` is the four writes and the poll. -/
theorem test_expand : expand 0 (.inv 3) = [.rwr 64 0x20 3, .rwr 64 0x28 998244351, .rwr 64 0x30 998244353,
    .rwr 64 0x00 0x1, .rrd 64 0x08] := by decide

/-! ## Witnesses: for each statement with hypotheses, concrete values that meet all of them together -/

/-- Four words at the end of DMEM: 60 + 4 = 64. -/
def seq4 : State := withSeq 60 [1, 2, 3, 4] 3

/-- The last word of DMEM alone: 63 + 1 = 64. -/
def seq1 : State := withSeq 63 [5] 3

/-- A machine on which no DMEM word is written. -/
def blank : State := withSeq 0 [] 3

theorem seq4_holds : seq4.dmem.holds seq4.base.toNat [1, 2, 3, 4] := by unfold Memory.holds; decide

theorem seq1_holds : seq1.dmem.holds seq1.base.toNat [5] := by unfold Memory.holds; decide

theorem seq4_legal : (2 : Nat) ≤ 23 ∧ seq4.len.toNat = 2 ^ 2 ∧ seq4.base.toNat + 2 ^ 2 ≤ seq4.dmemsz.toNat ∧
    [1, 2, 3, 4].length = 2 ^ 2 ∧ seq4.dmem.wf ∧ seq4.dmem.within seq4.dmemsz.toNat := by decide

theorem seq1_legal : (0 : Nat) ≤ 23 ∧ seq1.len.toNat = 2 ^ 0 ∧ seq1.base.toNat + 2 ^ 0 ≤ seq1.dmemsz.toNat ∧
    [5].length = 2 ^ 0 ∧ seq1.dmem.wf ∧ seq1.dmem.within seq1.dmemsz.toNat := by decide

theorem seq4_moving_written : ∀ i, i < 2 ^ 2 → (revtable (2 ^ 2)).getD i 0 ≠ i →
    ∃ v, seq4.dmem.read? (seq4.base.toNat + i) = some v := by
  intro i hi _
  have := seq4_holds i (by simpa using hi)
  exact ⟨_, this.2⟩

theorem root3_nonresidue : powmod seq4.arg0.toNat ((Config.modulus - 1) / 2) Config.modulus = Config.modulus - 1 := by
  decide

theorem latched_engineTurn (s : State) (w : Word) (h : s.delay = 0) : (latched s w).engineTurn := ⟨rfl, .inl h⟩

/-- The engine's turn with a host step still placed before it: the event at the head is held. -/
theorem waiting_engineTurn : (waiting 0x3 [.transaction (.rrd 64 0x10)]).engineTurn ∧
    (waiting 0x3 [.transaction (.rrd 64 0x10)]).delay ≠ 0 := by
  refine ⟨⟨rfl, .inr fun e rest h => ?_⟩, by decide⟩
  cases h
  exact ⟨by decide, fun w => by simp⟩

theorem witness_ReservedWordsEndWithIllegalCmd :
    (latched blank 0x0).engineTurn ∧ (latched blank 0x0).cmd.toNat % 16 = 0 ∧
    (latched blank 0x5).engineTurn ∧ 5 ≤ (latched blank 0x5).cmd.toNat % 16 ∧
    (latched blank 0x14).engineTurn ∧ (latched blank 0x14).cmd.getLsbD 4 = true ∧
      (latched blank 0x14).cmd.toNat % 16 ≠ 3 ∧
    (latched blank 0x23).engineTurn ∧ 32 ≤ (latched blank 0x23).cmd.toNat :=
  ⟨latched_engineTurn _ _ rfl, by decide, latched_engineTurn _ _ rfl, by decide, latched_engineTurn _ _ rfl, by decide,
    by decide, latched_engineTurn _ _ rfl, by decide⟩

theorem witness_StepRunsTheDecodedCommand :
    decode (latched seq4 0x13).cmd = .ok .nttGs ∧ (latched seq4 0x13).engineTurn ∧
    decode (waiting 0x4 [.transaction (.rrd 32 0x08)]).cmd = .ok .intt ∧
    (waiting 0x4 [.transaction (.rrd 32 0x08)]).pending = true ∧
    (∃ w rest, w ≠ 64 ∧ (waiting 0x4 [.transaction (.rrd 32 0x08)]).host = .transaction (.rrd w 0x08) :: rest) ∧
    0x13 < 2 ^ 64 ∧ 2 ^ 64 - 1 < 2 ^ 64 :=
  ⟨rfl, latched_engineTurn _ _ rfl, rfl, rfl, ⟨32, [], by decide, rfl⟩, by decide, by decide⟩

theorem witness_ReductionUnitIsExact : 998244352 < Config.modulus ∧ 0 < Config.modulus := by decide

theorem witness_PowmodComputesThePower : (withPow 3 5 0).arg2 = 0 ∧ (withPow 3 5 1).arg2 ≠ 0 := by decide

theorem witness_PowmodLaws : (withPow 0 0 2).arg1 = 0 ∧ 2 ≤ (withPow 0 0 2).arg2.toNat ∧
    (withPow 5 1 1).arg1 = 1 ∧ 1 ≤ (withPow 5 1 1).arg2.toNat ∧ (withPow 3 998244352 998244353).arg0 = 3 ∧
    (withPow 3 998244352 998244353).arg1 = 998244352 ∧ (withPow 3 998244352 998244353).arg2 = 998244353 := by decide

theorem witness_FermatInverse : 1 % Config.modulus ≠ 0 ∧ 998244354 % Config.modulus ≠ 0 ∧ 0 % Config.modulus = 0 ∧
    998244353 % Config.modulus = 0 ∧ 332748118 < Config.modulus ∧ mulM (3 % Config.modulus) 332748118 = 1 := by decide

theorem witness_RevtableReversesBits : (1 : Nat) = 2 ^ 0 ∧ 8 = 2 ^ 3 ∧ 1 ≤ 1 ∧ 7 < 8 := by decide

theorem witness_BitrevPermutesTheSequence : seq4.len.toNat = 2 ^ 2 ∧ seq4.base.toNat + 2 ^ 2 ≤ seq4.dmemsz.toNat ∧
    ∀ i, i < 2 ^ 2 → (revtable (2 ^ 2)).getD i 0 ≠ i → ∃ v, seq4.dmem.read? (seq4.base.toNat + i) = some v :=
  ⟨by decide, by decide, seq4_moving_written⟩

/-- A legal sequence with the moving word 1 unwritten, and with an unwritten word that does not move. -/
theorem witness_BitrevFaultsExactlyOnUnwrittenMoves :
    (withLen blank 4).len.toNat = 2 ^ 2 ∧ (withLen blank 4).base.toNat + 2 ^ 2 ≤ (withLen blank 4).dmemsz.toNat ∧
    (revtable (2 ^ 2)).getD 1 0 ≠ 1 ∧ (withLen blank 4).dmem.read? ((withLen blank 4).base.toNat + 1) = none ∧
    stopsAt (exec .bitrev (withLen blank 4)) 1 = true ∧ stopsAt (exec .bitrev (withLen blank 1)) 0 = false := by decide

theorem witness_BitrevTwiceRestores : seq4.len.toNat = 2 ^ 2 ∧ seq4.base.toNat + 2 ^ 2 ≤ seq4.dmemsz.toNat ∧
    seq4.dmem.wf ∧ seq4.dmem.within seq4.dmemsz.toNat ∧
    ∀ i, i < 2 ^ 2 → (revtable (2 ^ 2)).getD i 0 ≠ i → ∃ v, seq4.dmem.read? (seq4.base.toNat + i) = some v :=
  ⟨by decide, by decide, by decide, by decide, seq4_moving_written⟩

/-- The hypotheses of the three refinement statements, at lengths 4 and 1. -/
theorem witness_TransformsRunTheLoops :
    ((2 : Nat) ≤ 23 ∧ seq4.len.toNat = 2 ^ 2 ∧ seq4.base.toNat + 2 ^ 2 ≤ seq4.dmemsz.toNat ∧ [1, 2, 3, 4].length = 2 ^ 2 ∧
      seq4.dmem.holds seq4.base.toNat [1, 2, 3, 4] ∧
      ∀ i, i < 2 ^ 2 → (fun k => k - 59) (seq4.base.toNat + i) = [1, 2, 3, 4].getD i 0) ∧
    ((0 : Nat) ≤ 23 ∧ seq1.len.toNat = 2 ^ 0 ∧ seq1.base.toNat + 2 ^ 0 ≤ seq1.dmemsz.toNat ∧ [5].length = 2 ^ 0 ∧
      seq1.dmem.holds seq1.base.toNat [5] ∧ ∀ i, i < 2 ^ 0 → (fun _ => 5) (seq1.base.toNat + i) = [5].getD i 0) :=
  ⟨⟨by decide, by decide, by decide, by decide, seq4_holds, by decide⟩,
    ⟨by decide, by decide, by decide, by decide, seq1_holds, by decide⟩⟩

theorem witness_NttCtComputesTheNtt : (2 : Nat) ≤ 23 ∧ seq4.len.toNat = 2 ^ 2 ∧
    seq4.base.toNat + 2 ^ 2 ≤ seq4.dmemsz.toNat ∧ [1, 2, 3, 4].length = 2 ^ 2 ∧
    seq4.dmem.holds seq4.base.toNat [1, 2, 3, 4] ∧
    powmod seq4.arg0.toNat ((Config.modulus - 1) / 2) Config.modulus = Config.modulus - 1 ∧
    911660635 = powmod seq4.arg0.toNat ((Config.modulus - 1) / 2 ^ 2) Config.modulus :=
  ⟨by decide, by decide, by decide, by decide, seq4_holds, root3_nonresidue, by decide⟩

theorem witness_NttGsIsBitrevNttBitrev : (2 : Nat) ≤ 23 ∧ seq4.len.toNat = 2 ^ 2 ∧
    seq4.base.toNat + 2 ^ 2 ≤ seq4.dmemsz.toNat ∧ [1, 2, 3, 4].length = 2 ^ 2 ∧
    seq4.dmem.holds seq4.base.toNat [1, 2, 3, 4] ∧ seq4.dmem.wf ∧ seq4.dmem.within seq4.dmemsz.toNat ∧
    powmod seq4.arg0.toNat ((Config.modulus - 1) / 2) Config.modulus = Config.modulus - 1 :=
  ⟨by decide, by decide, by decide, by decide, seq4_holds, by decide, by decide, root3_nonresidue⟩

theorem witness_InttComputesTheInverseNtt : (2 : Nat) ≤ 23 ∧ seq4.len.toNat = 2 ^ 2 ∧
    seq4.base.toNat + 2 ^ 2 ≤ seq4.dmemsz.toNat ∧ [1, 2, 3, 4].length = 2 ^ 2 ∧
    seq4.dmem.holds seq4.base.toNat [1, 2, 3, 4] ∧
    powmod seq4.arg0.toNat ((Config.modulus - 1) / 2) Config.modulus = Config.modulus - 1 ∧
    powmod seq4.arg0.toNat ((Config.modulus - 1) / 2 ^ 2) Config.modulus * 86583718 % Config.modulus = 1 ∧
    2 ^ 2 * 748683265 % Config.modulus = 1 :=
  ⟨by decide, by decide, by decide, by decide, seq4_holds, root3_nonresidue, by decide, by decide⟩

/-- With root 3 and with root 5, another non-residue (V-INTT-13). -/
theorem witness_RoundTripRestores : (2 : Nat) ≤ 23 ∧ seq4.len.toNat = 2 ^ 2 ∧
    seq4.base.toNat + 2 ^ 2 ≤ seq4.dmemsz.toNat ∧ [1, 2, 3, 4].length = 2 ^ 2 ∧
    seq4.dmem.holds seq4.base.toNat [1, 2, 3, 4] ∧ seq4.dmem.wf ∧ seq4.dmem.within seq4.dmemsz.toNat ∧ seq4.arg0 = 3 ∧
    powmod (withSeq 60 [1, 2, 3, 4] 5).arg0.toNat ((Config.modulus - 1) / 2) Config.modulus = Config.modulus - 1 :=
  ⟨by decide, by decide, by decide, by decide, seq4_holds, by decide, by decide, by decide, by decide⟩

theorem witness_TransformOutputsAreFieldElements : goesTo (exec .nttCt seq1) (fun t => t.status == 0x2) = true ∧
    goesTo (exec .nttGs seq1) (fun t => t.status == 0x2) = true ∧
    goesTo (exec .intt seq1) (fun t => t.status == 0x2) = true ∧
    seq1.base.toNat ≤ 63 ∧ 63 < seq1.base.toNat + seq1.len.toNat := by decide +kernel

theorem witness_ShortTransforms : seq1.len = 1 ∧ seq1.base.toNat + 1 ≤ seq1.dmemsz.toNat ∧
    seq1.dmem.holds seq1.base.toNat [5] ∧ (withSeq 62 [1, 2] 3).len = 2 ∧
    (withSeq 62 [1, 2] 3).base.toNat + 2 ≤ (withSeq 62 [1, 2] 3).dmemsz.toNat ∧
    (withSeq 62 [1, 2] 3).dmem.holds (withSeq 62 [1, 2] 3).base.toNat [1, 2] :=
  ⟨by decide, by decide, seq1_holds, by decide, by decide, by unfold Memory.holds; decide⟩

theorem two_pow_24_no_length : ¬∃ h ≤ 23, (withLen blank 16777216).len.toNat = 2 ^ h := by decide

theorem zero_no_length : ¬∃ h, (withLen blank 0).len.toNat = 2 ^ h := fun ⟨h, hh⟩ => by
  have := Nat.two_pow_pos h
  have h0 : (withLen blank 0).len.toNat = 0 := by decide
  omega

theorem six_no_length : ¬∃ h, (withLen blank 6).len.toNat = 2 ^ h := fun ⟨h, hh⟩ => by
  have h6 : (withLen blank 6).len.toNat = 6 := by decide
  rw [h6] at hh
  match h, hh with
  | 0, hh => omega
  | 1, hh => omega
  | 2, hh => omega
  | k + 3, hh => have := Nat.two_pow_pos k; rw [pow_add] at hh; omega

/-- Lengths on both sides: 2^24 and 2^23 for a transform, 0, 6 and 2^24 for BITREV. -/
theorem witness_BadLengthExactly : (¬∃ h ≤ 23, (withLen blank 16777216).len.toNat = 2 ^ h) ∧
    (∃ h ≤ 23, (withLen blank 8388608).len.toNat = 2 ^ h) ∧ (¬∃ h, (withLen blank 0).len.toNat = 2 ^ h) ∧
    (¬∃ h, (withLen blank 6).len.toNat = 2 ^ h) ∧ (∃ h, (withLen blank 16777216).len.toNat = 2 ^ h) ∧
    goesTo (exec .nttCt (withLen blank 8388608)) (fun _ => true) = true ∧
    goesTo (exec .bitrev (withLen blank 16777216)) (fun _ => true) = true :=
  ⟨two_pow_24_no_length, ⟨23, by decide⟩, zero_no_length, six_no_length, ⟨24, by decide⟩, by decide, by decide⟩

/-- 60 + 8 is above 64, 60 + 4 is not; LEN = 2^24 is BITREV's alone. -/
theorem witness_RangeExactly : (withLen seq4 8).len.toNat = 2 ^ 3 ∧
    (withLen seq4 8).dmemsz.toNat < (withLen seq4 8).base.toNat + (withLen seq4 8).len.toNat ∧
    seq4.len.toNat = 2 ^ 2 ∧ seq4.base.toNat + seq4.len.toNat ≤ seq4.dmemsz.toNat ∧ Instr.bitrev ≠ .powmod ∧
    (withLen blank 16777216).len.toNat = 2 ^ 24 ∧ goesTo (exec .bitrev seq4) (fun _ => true) = true := by decide

/-- A bad word at index 2 after good ones at 0 and 1, an unwritten one at 1 after a good one at 0, and no bad word. -/
theorem witness_ReducedInputScan :
    (withSeq 60 [0, 1, 998244353, 0] 3).len.toNat = 2 ^ 2 ∧
    (withSeq 60 [0, 1, 998244353, 0] 3).base.toNat + 2 ^ 2 ≤ (withSeq 60 [0, 1, 998244353, 0] 3).dmemsz.toNat ∧
    (withSeq 60 [0, 1, 998244353, 0] 3).dmem.read? 60 = some 0 ∧
    (withSeq 60 [0, 1, 998244353, 0] 3).dmem.read? 61 = some 1 ∧
    (withSeq 60 [0, 1, 998244353, 0] 3).dmem.read? 62 = some 998244353 ∧
    (withLen (withSeq 60 [0] 3) 4).len.toNat = 2 ^ 2 ∧ (withLen (withSeq 60 [0] 3) 4).dmem.read? 60 = some 0 ∧
    (withLen (withSeq 60 [0] 3) 4).dmem.read? 61 = none := by decide

theorem seq4_reduced : ∀ k, k < 2 ^ 2 → ∃ v, seq4.dmem.read? (seq4.base.toNat + k) = some v ∧ v.toNat < Config.modulus := by
  intro k hk
  match k, hk with
  | 0, _ => exact ⟨1, by decide⟩
  | 1, _ => exact ⟨2, by decide⟩
  | 2, _ => exact ⟨3, by decide⟩
  | 3, _ => exact ⟨4, by decide⟩

theorem zero_illegal : ∀ i, decode (latched blank 0x0).cmd ≠ .ok i := fun i h => by
  have h0 : decode (latched blank 0x0).cmd = .error .reservedOp := rfl
  rw [h0] at h; cases h

theorem witness_FirstErrorWins :
    (latched blank 0x0).engineTurn ∧ (∀ i, decode (latched blank 0x0).cmd ≠ .ok i) ∧
    (latched (withPow 3 5 0) 0x1).engineTurn ∧ decode (latched (withPow 3 5 0) 0x1).cmd = .ok .powmod ∧
      (latched (withPow 3 5 0) 0x1).arg2 = 0 ∧
    (latched (withLen seq4 8) 0x2).engineTurn ∧ decode (latched (withLen seq4 8) 0x2).cmd = .ok .bitrev ∧
      (latched (withLen seq4 8) 0x2).len.toNat = 2 ^ 3 ∧
      (latched (withLen seq4 8) 0x2).dmemsz.toNat <
        (latched (withLen seq4 8) 0x2).base.toNat + (latched (withLen seq4 8) 0x2).len.toNat ∧
    (latched (withSeq 60 [998244353] 3) 0x3).engineTurn ∧
      decode (latched (withSeq 60 [998244353] 3) 0x3).cmd = .ok .nttCt ∧
      (latched (withSeq 60 [998244353] 3) 0x3).len.toNat = 2 ^ 0 ∧
      (latched (withSeq 60 [998244353] 3) 0x3).dmem.read? 60 = some 998244353 :=
  ⟨latched_engineTurn _ _ rfl, zero_illegal,
    latched_engineTurn _ _ rfl, rfl, rfl, latched_engineTurn _ _ rfl, rfl, rfl, by decide, latched_engineTurn _ _ rfl, rfl,
    rfl, by decide⟩

theorem witness_ErrorsArePrecise : goesTo (exec .bitrev (withLen blank 6)) (fun t => t.status != 0x2) = true ∧
    goesTo (exec .nttCt (withSeq 4 [0, 1, 998244353, 998244354] 3)) (fun t => t.status == 0x406) = true := by decide

theorem witness_CommandFrame : goesTo (exec .powmod (withPow 3 5 7)) (fun _ => true) = true ∧
    goesTo (exec .bitrev seq4) (fun _ => true) = true ∧ Instr.bitrev ≠ .powmod ∧
    ¬(seq4.base.toNat ≤ 59 ∧ 59 < seq4.base.toNat + seq4.len.toNat) ∧
    ¬(seq4.base.toNat ≤ 64 ∧ 64 < seq4.base.toNat + seq4.len.toNat) := by decide

theorem witness_HoldUntilTheEngineStep :
    (waiting 0x2 [.transaction (.mrd 64 0)]).pending = true ∧
    (waiting 0x2 [.transaction (.mrd 64 0)]).host = .transaction (.mrd 64 0) :: [] ∧
    (∀ w, Transaction.mrd 64 0 ≠ .rrd w 0x08) ∧ goesTo (step (waiting 0x2 [.transaction (.mrd 64 0)])) (fun _ => true) = true ∧
    (waiting 0x2 [statusRead]).host = .transaction (.rrd 64 0x08) :: [] ∧ (waiting 0x2 [statusRead]).delay ≠ 0 ∧
    (latched seq4 0x2).pending = true ∧ (latched seq4 0x2).delay = 0 ∧ (waiting 0x2 []).host = [] :=
  ⟨rfl, rfl, fun w => by simp, by decide, rfl, by decide, rfl, rfl, rfl⟩

theorem witness_PendingCommandEnds : (waiting 0x2 [statusRead]).pending = true := by rfl

/-- The event that each host-port statement is about, with nothing pending. -/
theorem asked_hostTurn (s : State) (e : HostEvent) (h : s.pending = false) : (asked s e).hostTurn e [] := ⟨h, rfl⟩

theorem waiting_inv : (waiting 0x3 [statusRead]).Inv :=
  ⟨by decide, by decide, by decide, by decide, by decide, by decide, by decide⟩

/-- A transaction that comes while a command is pending. -/
theorem waiting_held (t : Transaction) : (waiting 0x2 [.transaction t]).pending = true ∧
    (waiting 0x2 [.transaction t]).host = .transaction t :: [] := ⟨rfl, rfl⟩

theorem witness_CommandAcceptance :
    (asked seq4 (.transaction (.rwr 64 0x00 0x23))).hostTurn (.transaction (.rwr 64 0x00 0x23)) [] ∧
    (waiting 0x2 [.transaction (.rwr 64 0x00 0x1)]).pending = true ∧
    (waiting 0x2 [.transaction (.rwr 64 0x00 0x1)]).host = .transaction (.rwr 64 0x00 0x1) :: [] :=
  ⟨asked_hostTurn _ _ rfl, waiting_held _⟩

/-- The last register, the offset after it, a misaligned one, and a held and a STATUS read. -/
theorem witness_RegisterReads :
    (∀ off, (asked seq4 (.transaction (.rrd 64 off))).hostTurn (.transaction (.rrd 64 off)) []) ∧
    (0x58, seq4.dmemsz) ∈ [(0x00, seq4.cmd), (0x58, seq4.dmemsz)] ∧ ¬(0x60 % 8 = 0 ∧ 0x60 ≤ 0x58) ∧
    ¬(0x04 % 8 = 0 ∧ 0x04 ≤ 0x58) ∧ (waiting 0x2 [.transaction (.rrd 64 0x10)]).pending = true ∧
    (waiting 0x2 [.transaction (.rrd 64 0x10)]).host = .transaction (.rrd 64 0x10) :: [] ∧ 0x10 ≠ 0x08 ∧
    (waiting 0x3 [statusRead]).host = .transaction (.rrd 64 0x08) :: [] ∧ (waiting 0x3 [statusRead]).Inv ∧
    (waiting 0x3 [statusRead]).delay ≠ 0 :=
  ⟨fun _ => asked_hostTurn _ _ rfl, by simp, by decide, by decide, rfl, rfl, by decide, rfl, waiting_inv, by decide⟩

/-- Every writable offset is one the first clauses name; 0x08 and 0x60 fall under the last. -/
theorem witness_RegisterWrites :
    (∀ off, (asked seq4 (.transaction (.rwr 64 off 7))).hostTurn (.transaction (.rwr 64 off 7)) []) ∧
    0x08 ∉ [0x00, 0x10, 0x18, 0x20, 0x28, 0x30] ∧ 0x60 ∉ [0x00, 0x10, 0x18, 0x20, 0x28, 0x30] ∧
    (waiting 0x2 [.transaction (.rwr 64 0x10 7)]).pending = true ∧
    (waiting 0x2 [.transaction (.rwr 64 0x10 7)]).host = .transaction (.rwr 64 0x10 7) :: [] :=
  ⟨fun _ => asked_hostTurn _ _ rfl, by decide, by decide, waiting_held _⟩

/-- The last index, written; the first, unwritten; the first index outside; and a held read. -/
theorem witness_DmemReads :
    (∀ i, (asked seq4 (.transaction (.mrd 64 i))).hostTurn (.transaction (.mrd 64 i)) []) ∧
    63 < (asked seq4 (.transaction (.mrd 64 63))).dmemsz.toNat ∧
    (asked seq4 (.transaction (.mrd 64 63))).dmem.read? 63 = some 4 ∧
    (asked seq4 (.transaction (.mrd 64 0))).dmem.read? 0 = none ∧
    (asked seq4 (.transaction (.mrd 64 64))).dmemsz.toNat ≤ 64 ∧
    (waiting 0x2 [.transaction (.mrd 64 0)]).pending = true ∧
    (waiting 0x2 [.transaction (.mrd 64 0)]).host = .transaction (.mrd 64 0) :: [] :=
  ⟨fun _ => asked_hostTurn _ _ rfl, by decide, by decide, by decide, by decide, waiting_held _⟩

theorem witness_DmemWrites :
    (∀ i, (asked seq4 (.transaction (.mwr 64 i 9))).hostTurn (.transaction (.mwr 64 i 9)) []) ∧
    63 < (asked seq4 (.transaction (.mwr 64 63 9))).dmemsz.toNat ∧
    (asked seq4 (.transaction (.mwr 64 64 9))).dmemsz.toNat ≤ 64 ∧
    (waiting 0x2 [.transaction (.mwr 64 0 9)]).pending = true ∧
    (waiting 0x2 [.transaction (.mwr 64 0 9)]).host = .transaction (.mwr 64 0 9) :: [] :=
  ⟨fun _ => asked_hostTurn _ _ rfl, by decide, by decide, waiting_held _⟩

/-- One malformed transaction for each check of each kind, the first refused value of each range. -/
theorem witness_MalformedTransactionsAreBusErrors :
    (∀ t : Transaction, (asked seq4 (.transaction t)).hostTurn (.transaction t) []) ∧
    (32 ≠ 64 ∧ ¬(0x60 % 8 = 0 ∧ 0x60 ≤ 0x58) ∧ ¬(0x04 % 8 = 0 ∧ 0x04 ≤ 0x58) ∧
      0x58 ∈ [0x08, 0x38, 0x40, 0x48, 0x50, 0x58] ∧ (asked seq4 statusRead).dmemsz.toNat ≤ 64) :=
  ⟨fun _ => asked_hostTurn _ _ rfl, by decide⟩

theorem witness_PollReadsBusyThenTheOutcome : (waiting 0x3 [statusRead]).Inv ∧
    (waiting 0x3 [statusRead]).pending = true ∧ (waiting 0x3 [statusRead]).delay ≠ 0 ∧
    (waiting 0x3 [statusRead]).host = .transaction (.rrd 64 0x08) :: [] ∧ (latched seq4 0x2).engineTurn ∧
    goesTo (step (latched seq4 0x2)) (fun t => t.status == 0x2) = true ∧
    (latched (withPow 3 5 0) 0x1).engineTurn ∧
    goesTo (step (latched (withPow 3 5 0) 0x1)) (fun t => t.status == 0x506) = true :=
  ⟨waiting_inv, rfl, by decide, rfl, latched_engineTurn _ _ rfl, by decide, latched_engineTurn _ _ rfl, by decide⟩

theorem witness_ResetEvent : (waiting 0x3 [.reset]).host = .reset :: [] ∧
    ((waiting 0x3 [.reset]).pending = true ∧ (waiting 0x3 [.reset]).delay ≠ 0) ∧
    (asked seq4 .reset).host = .reset :: [] ∧ (asked seq4 .reset).pending = false := by decide

theorem witness_StepKeepsTheInvariant : (waiting 0x3 [statusRead]).Inv ∧
    goesTo (step (waiting 0x3 [statusRead])) (fun _ => true) = true := ⟨waiting_inv, by decide⟩

theorem seq4_inv : seq4.Inv := ⟨by decide, by decide, by decide, by decide, by decide, by decide, by decide⟩

/-- STATUS = 0x1 in the first state, 0 in the second; 0x406 and 0x2 are legal too. -/
theorem witness_StatusInvariants : (waiting 0x3 [statusRead]).Inv ∧ seq4.Inv ∧ ({ seq4 with status := 0x406 } : State).Inv ∧
    ({ seq4 with status := 0x2 } : State).Inv :=
  ⟨waiting_inv, seq4_inv, ⟨by decide, by decide, by decide, by decide, by decide, by decide, by decide⟩,
    ⟨by decide, by decide, by decide, by decide, by decide, by decide, by decide⟩⟩

theorem witness_OnlyPowmodWritesResult :
    goesTo (step (latched (withPow 3 5 7) 0x1)) (fun t => t.result != (latched (withPow 3 5 7) 0x1).result) = true ∧
    goesTo (step (asked (withPow 3 5 7) .reset)) (fun t => t.result != (withPow 3 5 7).result) = true := by decide

theorem witness_OnlyTheseWriteDmem :
    goesTo (step (latched seq4 0x2)) (fun t => t.dmem.read? 61 != (latched seq4 0x2).dmem.read? 61) = true ∧
    goesTo (step (asked seq4 (.transaction (.mwr 64 0 9)))) (fun t => t.dmem.read? 0 != seq4.dmem.read? 0) = true ∧
    goesTo (step (asked seq4 .reset)) (fun t => t.dmem.read? 60 != seq4.dmem.read? 60) = true := by decide

theorem witness_PendingCommandKeepsItsOperands : (waiting 0x3 [statusRead]).pending = true ∧
    goesTo (step (waiting 0x3 [statusRead])) (fun _ => true) = true ∧
    ∀ rest, (waiting 0x3 [statusRead]).host ≠ .reset :: rest :=
  ⟨rfl, by decide, fun rest h => by cases h⟩

theorem witness_ConstantsAndTheFaultMark :
    goesTo (step (asked seq4 (.transaction (.rrd 32 0x08)))) (fun t => t.faulted) = true ∧
    (asked seq4 (.transaction (.rrd 32 0x08))).faulted = false := by decide

theorem witness_OnlyUnwrittenReadsStop : stopsAt (step (asked blank (.transaction (.mrd 64 5)))) 5 = true := by decide

end Sys2Proof.Tests
end

section
/-! PROOFS of 10_state.md, the shared facts: what one step can do, agent by agent, and the frame of a host transaction. -/

namespace Sys2Proof.Machine

/-- The only transaction that is not held while a command is pending is the read of STATUS, which only answers (R181). -/
theorem transact_of_notHeld {s t : State} {tr : Transaction} (hn : notHeld (.transaction tr) = true)
    (h : transact s tr = .next t) : t = s.respond (.value s.status) := by
  obtain rfl : tr = .rrd 64 0x08 := by simpa [notHeld] using hn
  cases h
  rfl

/-- Everything one step can do, by the agent that moves: the engine, the reset input, the one transaction that is not held
while a command is pending, any transaction while none is, or nobody (R181, R189). -/
theorem step_next_by_agent {s t : State} (h : step s = .next t) :
    (s.pending = true ∧ engineStep s = .next t) ∨
    (∃ rest q, s.host = .reset :: rest ∧ (q = s.takeEvent rest ∨ q = (s.takeEvent rest).spendDelay) ∧ t = q.resetEvent) ∨
    (s.pending = true ∧ ∃ rest, t = (s.takeEvent rest).spendDelay.respond (.value s.status)) ∨
    (s.pending = false ∧ ∃ tr rest, s.host = .transaction tr :: rest ∧ transact (s.takeEvent rest) tr = .next t) ∨
    t = s := by
  rcases step_next h with hengine | ⟨e, rest, q, hhost, hmove, hq⟩ | ⟨-, -, rfl⟩
  · exact .inl hengine
  · refine .inr ?_
    cases e with
    | reset =>
      cases hmove
      exact .inl ⟨rest, q, hhost, hq.symm.imp And.right (fun hq => hq.2.2.2), rfl⟩
    | transaction tr =>
      rcases hq with ⟨hp, hn, -, rfl⟩ | ⟨hp, rfl⟩
      · exact .inr (.inl ⟨hp, rest, transact_of_notHeld hn hmove⟩)
      · exact .inr (.inr (.inl ⟨hp, tr, rest, hhost, hmove⟩))
  · exact .inr (.inr (.inr (.inr rfl)))

/-- No host transaction writes RESULT or DMEMSZ (R21, R30, R33). -/
theorem transact_next_frame {s t : State} {tr : Transaction} (h : transact s tr = .next t) :
    t.result = s.result ∧ t.dmemsz = s.dmemsz := by
  rcases transact_next h with ⟨k, -, rfl⟩ | ⟨off, r, -, -, rfl⟩ | ⟨i, v, -, -, -, rfl⟩ | ⟨off, r, v, -, -, -, rfl⟩ |
    ⟨i, v, -, -, rfl⟩
  case inr.inr.inr.inl => simp
  all_goals exact ⟨rfl, rfl⟩

/-- A host transaction leaves the fault mark as it is, or is answered with a bus error, which sets it (R208). -/
theorem transact_next_faulted {s t : State} {tr : Transaction} (h : transact s tr = .next t) :
    t.faulted = s.faulted ∨ t.faulted = true ∧ ∃ k, t.responses = s.responses ++ [.busError k] := by
  rcases transact_next h with ⟨k, -, rfl⟩ | ⟨off, r, -, -, rfl⟩ | ⟨i, v, -, -, -, rfl⟩ | ⟨off, r, v, -, -, -, rfl⟩ |
    ⟨i, v, -, -, rfl⟩
  case inl => exact .inr ⟨rfl, k, rfl⟩
  case inr.inr.inr.inl => simp
  all_goals exact .inl rfl

/-- An engine step writes RESULT only as the completion of POWMOD (R30, R104). -/
theorem engineStep_next_result {s t : State} (h : engineStep s = .next t) :
    t.result = s.result ∨
    s.cmd = encode .powmod ∧ s.powModulus ≠ 0 ∧ t.status = statusDone ∧
      t.result = wordOf (powmod s.powBase s.powExponent s.powModulus) := by
  rcases engineStep_next h with ⟨e, -, rfl⟩ | ⟨i, hi, ⟨s', hs', rfl⟩ | ⟨c, info, -, rfl⟩⟩
  · exact .inl rfl
  · rcases body_ok hs' with ⟨rfl, hm, rfl⟩ | ⟨-, m, rfl, -⟩
    · exact .inr ⟨(decode_eq_ok _ _).1 hi, hm, rfl, rfl⟩
    · exact .inl rfl
  · exact .inl rfl

end Sys2Proof.Machine
end

section
/-! PROOFS of 10_state.md, the words STATUS can hold (R23, R24). -/

namespace Sys2Proof.Machine

theorem statusError_mem_legalStatuses (c : ErrCode) : statusError c ∈ legalStatuses := by cases c <;> decide

theorem statusBUSY_zero : statusBUSY 0 = false := by decide
theorem statusBUSY_statusBusy : statusBUSY statusBusy = true := by decide
theorem statusBUSY_statusDone : statusBUSY statusDone = false := by decide
theorem statusBUSY_statusError (c : ErrCode) : statusBUSY (statusError c) = false := by cases c <;> decide
theorem statusDONE_statusError (c : ErrCode) : statusDONE (statusError c) = true := by cases c <;> decide
theorem statusERR_statusError (c : ErrCode) : statusERR (statusError c) = true := by cases c <;> decide

theorem statusBusy_ne_zero : statusBusy ≠ 0 := by decide
theorem statusDone_ne_zero : statusDone ≠ 0 := by decide
theorem statusError_ne_zero (c : ErrCode) : statusError c ≠ 0 := by cases c <;> decide

section
variable {w : Word} (h : w ∈ legalStatuses)
include h

/-- Every legal word is one of the few the NTTE writes, so a fact about each error code is one about all of them. -/
theorem legalStatus_cases : w = 0 ∨ w = statusBusy ∨ w = statusDone ∨ ∃ c, w = statusError c := by
  simp only [legalStatuses, List.mem_cons, List.not_mem_nil, or_false] at h
  rcases h with h | h | h | h | h | h | h | h
  · exact .inl h
  · exact .inr (.inl h)
  · exact .inr (.inr (.inl h))
  all_goals exact .inr (.inr (.inr ⟨_, h⟩))

theorem legalStatus_busy (hb : statusBUSY w = true) : w = statusBusy := by
  rcases legalStatus_cases h with rfl | rfl | rfl | ⟨c, rfl⟩
  · exact absurd hb (by decide)
  · rfl
  · exact absurd hb (by decide)
  · exact absurd hb (by simp [statusBUSY_statusError])

theorem legalStatus_err (he : statusERR w = true) : ∃ c, w = statusError c := by
  rcases legalStatus_cases h with rfl | rfl | rfl | hc
  · exact absurd he (by decide)
  · exact absurd he (by decide)
  · exact absurd he (by decide)
  · exact hc

theorem legalStatus_done_without_err (hd : statusDONE w = true) (he : statusERR w = false) : w = statusDone := by
  rcases legalStatus_cases h with rfl | rfl | rfl | ⟨c, rfl⟩
  · exact absurd hd (by decide)
  · exact absurd hd (by decide)
  · rfl
  · exact absurd he (by simp [statusERR_statusError])

theorem legalStatus_idle (hb : statusBUSY w = false) (hd : statusDONE w = false) : w = 0 := by
  rcases legalStatus_cases h with rfl | rfl | rfl | ⟨c, rfl⟩
  · rfl
  · exact absurd hb (by decide)
  · exact absurd hd (by decide)
  · exact absurd hd (by simp [statusDONE_statusError])

theorem legalStatus_reserved : statusReservedZero w = true := by
  rcases legalStatus_cases h with rfl | rfl | rfl | ⟨c, rfl⟩
  case inr.inr.inr => cases c <;> decide
  all_goals decide

end

end Sys2Proof.Machine
end

section
/-! PROOFS of 10_state.md, the invariant: each of the state's updates keeps it, under the condition on which the machine
uses that update. -/

namespace Sys2Proof.Machine

/-- DMEM has a word, whatever DMEM_WORDS is (R9, R33). -/
theorem dmemWords_pos : 1 ≤ Config.dmemWords.toNat := by
  simp only [Config.dmemWords, wordOf, BitVec.toNat_ofNat]
  omega

theorem State.inv_resetEvent {s : State} (h : 1 ≤ s.dmemWords) : s.resetEvent.Inv where
  dmem_wf := List.Pairwise.nil
  dmem_within := fun _ hc => absurd hc List.not_mem_nil
  dmem_nonempty := h
  status_legal := List.mem_cons_self
  busy_iff_pending := statusBUSY_zero
  idle_is_fresh := fun _ => ⟨rfl, rfl, rfl⟩
  errinfo_only_unreduced := fun _ => rfl

section
variable {s : State} (h : s.Inv)
include h

/-! What is outside the NTTE, and the four operand registers, are no part of the invariant. -/

theorem State.Inv.takeEvent (rest : List HostEvent) : (s.takeEvent rest).Inv := { h with }
theorem State.Inv.spendDelay : s.spendDelay.Inv := { h with }
theorem State.Inv.respond (r : Response) : (s.respond r).Inv := { h with }
theorem State.Inv.busError (k : BusErrorKind) : (s.busError k).Inv := { h with }

theorem State.Inv.setDmem {m : Memory} (hwf : m.wf) (hin : m.within s.dmemWords) : (s.setDmem m).Inv :=
  { h with dmem_wf := hwf, dmem_within := hin }

/-- RESULT may be written while a command is pending: STATUS is then 0x1, and the first command has been accepted. -/
theorem State.Inv.setResult (hp : s.pending = true) (v : Word) : (s.setResult v).Inv :=
  { h with idle_is_fresh := fun h0 => absurd ((status_of_pending h hp).symm.trans h0) statusBusy_ne_zero }

theorem State.Inv.accept (v : Word) : (s.accept v).Inv :=
  { h with
    status_legal := by simp [legalStatuses]
    busy_iff_pending := statusBUSY_statusBusy
    idle_is_fresh := fun h0 => absurd h0 statusBusy_ne_zero
    errinfo_only_unreduced := fun _ => rfl }

theorem State.Inv.writeReg (r : RegName) (v : Word) : (s.writeReg r v).Inv := by
  cases r with
  | cmd => exact h.accept v
  | base | len | arg0 | arg1 | arg2 => exact { h with }
  | status | result | errinfo | modulus | proot | dmemsz => exact h

/-- A command completes with the ERRINFO it was accepted with, which is 0 (R34, R183). -/
theorem State.Inv.complete (hp : s.pending = true) : s.complete.Inv :=
  { h with
    status_legal := by simp [legalStatuses]
    busy_iff_pending := statusBUSY_statusDone
    idle_is_fresh := fun h0 => absurd h0 statusDone_ne_zero
    errinfo_only_unreduced := fun _ => h.errinfo_only_unreduced (by rw [status_of_pending h hp]; decide) }

theorem State.Inv.cmdError {c : ErrCode} {info : Word} (hinfo : c ≠ .unreduced → info = 0) : (s.cmdError c info).Inv :=
  { h with
    status_legal := statusError_mem_legalStatuses c
    busy_iff_pending := statusBUSY_statusError c
    idle_is_fresh := fun h0 => absurd h0 (statusError_ne_zero c)
    errinfo_only_unreduced := fun hne => hinfo fun hc => hne (by rw [hc]; rfl) }

/-- The body of a pending command leaves the invariant, also when it writes RESULT or DMEM. -/
theorem State.Inv.body_ok {i : Instr} {s' : State} (hp : s.pending = true) (hs' : body i s = .ok s') :
    s'.Inv ∧ s'.pending = true := by
  rcases Machine.body_ok hs' with ⟨-, -, rfl⟩ | ⟨-, m, rfl, -, -, hm⟩
  · exact ⟨h.setResult hp _, hp⟩
  · obtain ⟨hwf, hin⟩ := hm h.dmem_wf h.dmem_within
    exact ⟨h.setDmem hwf hin, hp⟩

theorem State.Inv.engineStep {t : State} (hp : s.pending = true) (ht : engineStep s = .next t) : t.Inv := by
  rcases engineStep_next ht with ⟨e, -, rfl⟩ | ⟨i, -, ⟨s', hs', rfl⟩ | ⟨c, info, hc, rfl⟩⟩
  · exact h.cmdError fun _ => rfl
  · obtain ⟨h', hp'⟩ := h.body_ok hp hs'
    exact h'.complete hp'
  · rcases body_error hc with ⟨c', info', heq, -, hinfo⟩ | ⟨k, -, -, -, heq, -⟩
    · cases heq
      exact h.cmdError hinfo
    · cases heq

theorem State.Inv.transact {t : State} {tr : Transaction} (ht : transact s tr = .next t) : t.Inv := by
  rcases transact_next ht with ⟨k, -, rfl⟩ | ⟨off, r, -, -, rfl⟩ | ⟨i, v, -, -, -, rfl⟩ | ⟨off, r, v, -, -, -, rfl⟩ |
    ⟨i, v, -, hi, rfl⟩
  · exact h.busError k
  · exact h.respond _
  · exact h.respond _
  · exact (h.writeReg r v).respond _
  · exact (h.setDmem (Memory.write_wf h.dmem_wf i v) (Memory.write_within h.dmem_within hi v)).respond _

theorem State.Inv.step {t : State} (ht : step s = .next t) : t.Inv := by
  rcases step_next_by_agent ht with ⟨hp, ht⟩ | ⟨rest, q, -, hq, rfl⟩ | ⟨-, rest, rfl⟩ | ⟨-, tr, rest, -, ht⟩ | rfl
  · exact h.engineStep hp ht
  · have hqs : q.dmemWords = s.dmemWords := by rcases hq with rfl | rfl <;> rfl
    exact State.inv_resetEvent (hqs ▸ h.dmem_nonempty)
  · exact (h.takeEvent rest).spendDelay.respond _
  · exact (h.takeEvent rest).transact ht
  · exact h

end

end Sys2Proof.Machine
end

section
/-! PROOFS of 10_state.md: the obligations settled. -/

namespace Sys2Proof.Machine

/-- Settles O42: each agent's move keeps the invariant. -/
theorem stepKeepsTheInvariant : Obligations.StepKeepsTheInvariant := fun _ _ hi h => hi.step h

/-- Settles O43: the fields tell which of the legal words STATUS holds, and that word's fields are as R24 says. -/
theorem statusInvariants : Obligations.StatusInvariants := by
  intro s hi
  have hlegal := hi.status_legal
  refine ⟨fun hb => ?_, fun he => ?_, fun hd he => ?_, fun hb hd => ?_, legalStatus_reserved hlegal⟩
  · rw [legalStatus_busy hlegal hb]
    decide
  · obtain ⟨c, hc⟩ := legalStatus_err hlegal he
    rw [hc]
    cases c <;> decide
  · rw [legalStatus_done_without_err hlegal hd he]
    decide
  · have h0 := legalStatus_idle hlegal hb hd
    exact ⟨h0, (hi.idle_is_fresh h0).1, hi.busy_iff_pending.symm.trans hb⟩

/-- Settles O44: of the agents only the engine, by POWMOD, and the reset input write RESULT. -/
theorem onlyPowmodWritesResult : Obligations.OnlyPowmodWritesResult := by
  intro s t h hne
  rcases step_next_by_agent h with ⟨hp, h⟩ | ⟨rest, q, hhost, -, rfl⟩ | ⟨-, rest, rfl⟩ | ⟨-, tr, rest, -, h⟩ | rfl
  · rcases engineStep_next_result h with hsame | ⟨hcmd, hm, hst, hres⟩
    · exact absurd hsame hne
    · refine .inl ⟨hp, hcmd, fun h0 => hm (by simp [State.powModulus, h0]), hst, ?_⟩
      rw [hres, powmod_eq_pow s.powBase s.powExponent s.powModulus s.arg1.isLt]
      rfl
  · exact .inr ⟨rest, hhost, rfl⟩
  · exact absurd rfl hne
  · exact absurd (transact_next_frame h).1 hne
  · exact absurd rfl hne

/-- Settles O46: while a command is pending the engine or a STATUS read moves, and neither writes these registers. -/
theorem pendingCommandKeepsItsOperands : Obligations.PendingCommandKeepsItsOperands := by
  intro s t hp h hreset
  rcases step_next_by_agent h with ⟨-, h⟩ | ⟨rest, q, hhost, -, -⟩ | ⟨-, rest, rfl⟩ | ⟨hidle, -⟩ | rfl
  · obtain ⟨-, -, -, -, -, hcmd, hbase, hlen, harg0, harg1, harg2, -⟩ := engineStep_next_frame h
    exact ⟨hcmd, hbase, hlen, harg0, harg1, harg2⟩
  · exact absurd hhost (hreset rest)
  · exact ⟨rfl, rfl, rfl, rfl, rfl, rfl⟩
  · simp [hp] at hidle
  · exact ⟨rfl, rfl, rfl, rfl, rfl, rfl⟩

/-- A step that leaves DMEMSZ and the fault mark as they are owes no cause for setting the mark. -/
theorem faultMark_of_eq {s t : State} {P : Prop} (hsz : t.dmemsz = s.dmemsz) (hf : t.faulted = s.faulted) :
    t.dmemsz = s.dmemsz ∧ (s.faulted = true → t.faulted = true) ∧ (s.faulted = false → t.faulted = true → P) :=
  ⟨hsz, hf.trans, fun h0 h1 => absurd (h1.symm.trans (hf.trans h0)) (by decide)⟩

/-- Settles O47: no agent writes DMEMSZ, and only a transaction, which steps with nothing pending, can set the mark. -/
theorem constantsAndTheFaultMark : Obligations.ConstantsAndTheFaultMark := by
  intro s t h
  rcases step_next_by_agent h with ⟨-, h⟩ | ⟨rest, q, -, hq, rfl⟩ | ⟨-, rest, rfl⟩ | ⟨hp, tr, rest, hhost, h⟩ | rfl
  · obtain ⟨-, -, -, hf, hsz, -⟩ := engineStep_next_frame h
    exact faultMark_of_eq hsz hf
  · rcases hq with rfl | rfl <;> exact faultMark_of_eq rfl rfl
  · exact faultMark_of_eq rfl rfl
  · have hsz : t.dmemsz = s.dmemsz := (transact_next_frame h).2
    rcases transact_next_faulted h with hf | ⟨hf, k, hresp⟩
    · exact faultMark_of_eq hsz hf
    · exact ⟨hsz, fun _ => hf, fun _ _ => ⟨hp, tr, rest, k, hhost, hresp⟩⟩
  · exact faultMark_of_eq rfl rfl

/-- Settles O39: the fields of the reset state as R42 lists them. -/
theorem resetValues : Obligations.ResetValues :=
  ⟨rfl, rfl, rfl, rfl, rfl, rfl, rfl, rfl, rfl, rfl, rfl, rfl, rfl, Memory.read?_nil⟩

/-- Settles O41: the reset state is one that a reset event leaves, and DMEM_WORDS is at least 1. -/
theorem resetMeetsTheInvariant : Obligations.ResetMeetsTheInvariant :=
  State.inv_resetEvent (s := State.reset) dmemWords_pos

end Sys2Proof.Machine
end

section
/-! PROOFS of 20_memory.md: what each agent's move can change in DMEM. -/

namespace Sys2Proof.Machine

/-- The commands on a sequence are all but POWMOD; their words by R77. -/
theorem encode_of_ne_powmod {i : Instr} (h : i ≠ .powmod) :
    encode i = 0x2 ∨ encode i = 0x3 ∨ encode i = 0x13 ∨ encode i = 0x4 := by
  cases i with
  | powmod => exact absurd rfl h
  | bitrev | nttCt | nttGs | intt => decide

/-- An engine step leaves DMEM as it is, or is a sequence command's, which leaves every word outside its sequence (R58). -/
theorem engineStep_next_dmem {s t : State} (h : engineStep s = .next t) :
    t.dmem = s.dmem ∨
    (s.cmd = 0x2 ∨ s.cmd = 0x3 ∨ s.cmd = 0x13 ∨ s.cmd = 0x4) ∧
      s.dmem.sameOutside t.dmem s.seqStart s.seqLength ∧ s.seqStart + s.seqLength ≤ s.dmemWords := by
  rcases engineStep_next h with ⟨e, -, rfl⟩ | ⟨i, hi, ⟨s', hs', rfl⟩ | ⟨c, info, -, rfl⟩⟩
  · exact .inl rfl
  · rcases body_ok hs' with ⟨-, -, rfl⟩ | ⟨hne, m, rfl, hout, hin, -⟩
    · exact .inl rfl
    · rw [(decode_eq_ok _ _).1 hi]
      exact .inr ⟨encode_of_ne_powmod hne, hout, hin⟩
  · exact .inl rfl

/-- A host transaction leaves DMEM as it is, or is a 64-bit MWR (R51, R187). -/
theorem transact_next_dmem {s t : State} {tr : Transaction} (h : transact s tr = .next t) :
    t.dmem = s.dmem ∨ ∃ i v, tr = .mwr 64 i v ∧ t.dmem = s.dmem.write i v := by
  rcases transact_next h with ⟨k, -, rfl⟩ | ⟨off, r, -, -, rfl⟩ | ⟨i, v, -, -, -, rfl⟩ | ⟨off, r, v, -, -, -, rfl⟩ |
    ⟨i, v, htr, -, rfl⟩
  case inr.inr.inr.inl => exact .inl (by simp)
  case inr.inr.inr.inr => exact .inr ⟨i, v, htr, rfl⟩
  all_goals exact .inl rfl

/-- A memory that agrees outside a range can read otherwise only inside it. -/
theorem Memory.sameOutside.mem_range {m m' : Memory} {p n k : Nat} (h : m.sameOutside m' p n)
    (hne : m'.read? k ≠ m.read? k) : p ≤ k ∧ k < p + n :=
  not_imp_comm.1 (h k) hne

/-- A word that reads otherwise after a write is the word written. -/
theorem Memory.eq_of_read?_write_ne {m : Memory} {i k : Nat} {v : Word} (hne : (m.write i v).read? k ≠ m.read? k) :
    i = k :=
  not_imp_comm.1 (m.read?_write_other v) hne

/-- Settles O45: of the agents only the engine, by a sequence command, an MWR and the reset input write DMEM. -/
theorem onlyTheseWriteDmem : Obligations.OnlyTheseWriteDmem := by
  intro s t k h hne
  have changed : t.dmem ≠ s.dmem := fun heq => hne (by rw [heq])
  rcases step_next_by_agent h with ⟨hp, h⟩ | ⟨rest, q, hhost, -, rfl⟩ | ⟨-, rest, rfl⟩ | ⟨hp, tr, rest, hhost, h⟩ | rfl
  · obtain ⟨hcmd, hout, hin⟩ := (engineStep_next_dmem h).resolve_left changed
    obtain ⟨hlo, hhi⟩ := hout.mem_range hne
    exact .inl ⟨hp, hcmd, hlo, hhi, hin⟩
  · exact .inr (.inr ⟨rest, hhost, rfl⟩)
  · exact absurd rfl changed
  · obtain ⟨i, v, rfl, hw⟩ := (transact_next_dmem h).resolve_left changed
    rw [State.takeEvent_dmem] at hw
    rw [hw] at hne
    obtain rfl := Memory.eq_of_read?_write_ne hne
    exact .inr (.inl ⟨hp, v, rest, hhost, by rw [hw, Memory.read?_write_same]⟩)
  · exact absurd rfl changed

end Sys2Proof.Machine
end

section
/-! PROOFS of 30_encoding.md: the command words, their fields, the reserved words and the frame of the commands. -/

namespace Sys2Proof.Machine

/-! ## The five command words -/

@[simp] theorem encode_powmod : encode .powmod = 0x1 := by decide
@[simp] theorem encode_bitrev : encode .bitrev = 0x2 := by decide
@[simp] theorem encode_nttCt : encode .nttCt = 0x3 := by decide
@[simp] theorem encode_nttGs : encode .nttGs = 0x13 := by decide
@[simp] theorem encode_intt : encode .intt = 0x4 := by decide

theorem instr_wellFormed (i : Instr) : i.wellFormed = true := by cases i <;> decide

/-- The mask of every row of the opcode map keeps the whole word (R77). -/
theorem and_commandMask (c : Word) : c &&& 0xFFFFFFFFFFFFFFFF = c := BitVec.and_allOnes

/-- Settles O2: an instruction's word is the only word that decodes to it, and is its row's match value. -/
theorem decodeAndEncodeAgree : Obligations.DecodeAndEncodeAgree := by
  refine ⟨fun i => ⟨(decode_eq_ok _ i).2 rfl, instr_wellFormed i⟩, fun c i => ?_⟩
  rw [decode_eq_ok, and_commandMask]
  cases i with
  | powmod => rw [encode_powmod]
  | bitrev => rw [encode_bitrev]
  | nttCt => rw [encode_nttCt]
  | nttGs => rw [encode_nttGs]
  | intt => rw [encode_intt]

/-- Settles O1: the five words are the opcode table's; 0x0 has a reserved OP and 0x14 a reserved VAR. -/
theorem commandWordsDecode : Obligations.CommandWordsDecode :=
  ⟨Laws.TableWord.powmod.2, Laws.TableWord.bitrev.2, Laws.TableWord.nttCt.2, Laws.TableWord.nttGs.2,
    Laws.TableWord.intt.2, by decide, by decide⟩

/-- The line of a bare mnemonic is the CMD write of its word, at offset 0 (R21, R79). -/
theorem expand_command (k : Nat) (i : Instr) : expand k (.command i) = [.rwr 64 0x00 (encode i)] := rfl

/-- Settles O49: each of the five words put into the one CMD write. -/
theorem mnemonicsAreCmdWrites : Obligations.MnemonicsAreCmdWrites := by
  intro k
  simp only [expand_command, encode_powmod, encode_bitrev, encode_nttCt, encode_nttGs, encode_intt, and_self]

/-! ## The fields of a word -/

/-- OP, VAR and RSV cover the word (R70). -/
@[simp] theorem joinFields_splitWord (c : Word) : joinFields (splitWord c) = c := by
  have hrsvVar : c.extractLsb' 5 59 ++ c.extractLsb' 4 1 = c.extractLsb' 4 60 :=
    BitVec.extractLsb'_append_extractLsb'_eq_extractLsb' rfl
  have hall : c.extractLsb' 4 60 ++ c.extractLsb' 0 4 = c.extractLsb' 0 64 :=
    BitVec.extractLsb'_append_extractLsb'_eq_extractLsb' rfl
  simp only [joinFields, splitWord, hrsvVar, hall, BitVec.extractLsb'_eq_self]

/-- OP, VAR and RSV do not overlap (R70). -/
@[simp] theorem splitWord_joinFields (f : CmdFields) : splitWord (joinFields f) = f := by
  obtain ⟨op, var, rsv⟩ := f
  have hop : (rsv ++ var ++ op).extractLsb' 0 4 = op := BitVec.extractLsb'_append_eq_right
  have hvar : (rsv ++ var ++ op).extractLsb' 4 1 = var :=
    (BitVec.extractLsb'_append_eq_of_le (by decide)).trans BitVec.extractLsb'_append_eq_right
  have hrsv : (rsv ++ var ++ op).extractLsb' 5 59 = rsv :=
    (BitVec.extractLsb'_append_eq_of_le (by decide)).trans BitVec.extractLsb'_append_eq_left
  simp only [splitWord, joinFields, hop, hvar, hrsv]

/-- The legal field triples are those of the five commands (R71, R72, R75). -/
theorem wellFormed_iff_exists_fields {f : CmdFields} : f.wellFormed = true ↔ ∃ i : Instr, f = i.fields := by
  constructor
  · obtain ⟨op, var, rsv⟩ := f
    simp only [CmdFields.wellFormed, CmdFields.rsvOk, CmdFields.opOk, CmdFields.varOk, Bool.and_eq_true, Bool.or_eq_true,
      beq_iff_eq]
    rintro ⟨⟨rfl, hop⟩, hvar⟩
    rcases BitVec.eq_zero_or_eq_one var with rfl | rfl
    · rcases hop with ((rfl | rfl) | rfl) | rfl
      · exact ⟨.powmod, rfl⟩
      · exact ⟨.bitrev, rfl⟩
      · exact ⟨.nttCt, rfl⟩
      · exact ⟨.intt, rfl⟩
    · obtain rfl : op = 0x3 := hvar.resolve_left (by decide)
      exact ⟨.nttGs, rfl⟩
  · rintro ⟨i, rfl⟩
    exact instr_wellFormed i

/-- A word decodes to the instruction whose fields it has. -/
theorem decode_eq_ok_iff_splitWord (c : Word) (i : Instr) : decode c = .ok i ↔ splitWord c = i.fields := by
  rw [decode_eq_ok, encode]
  constructor
  · rintro rfl
    exact splitWord_joinFields _
  · intro h
    rw [← h, joinFields_splitWord]

/-- Settles O3: the legal fields are those of the five commands, and they are the fields of the words that decode. -/
theorem legalFieldsDecode : Obligations.LegalFieldsDecode := fun c =>
  ⟨joinFields_splitWord c, by simp only [wellFormed_iff_exists_fields, decode_eq_ok_iff_splitWord]⟩

/-! ## Reserved words -/

/-- A command word has an assigned OP, VAR = 1 with OP = 3 only, and no bit set in 63:5 (R71, R72). -/
theorem encode_not_reserved (i : Instr) :
    ¬((encode i).toNat % 16 = 0 ∨ 5 ≤ (encode i).toNat % 16 ∨
      ((encode i).getLsbD 4 = true ∧ (encode i).toNat % 16 ≠ 3) ∨ 32 ≤ (encode i).toNat) := by
  cases i <;> decide

/-- Settles O4: a reserved word is no command's word, so the engine step is ILLEGAL_CMD's. -/
theorem reservedWordsEndWithIllegalCmd : Obligations.ReservedWordsEndWithIllegalCmd := by
  intro s hturn hreserved
  have hillegal : ∀ i, decode s.cmd ≠ .ok i := fun i hi => by
    rw [(decode_eq_ok _ _).1 hi] at hreserved
    exact encode_not_reserved i hreserved
  rw [step_of_engineTurn hturn, engineStep_of_illegal hillegal]
  rfl

/-! ## The frame of the commands -/

/-- How a command that answers a next state has ended: its body succeeded, or met a command error (R188, R201). -/
theorem exec_next {i : Instr} {s t : State} (h : exec i s = .next t) :
    (∃ s', body i s = .ok s' ∧ t = s'.complete) ∨
      ∃ c info, body i s = .error (.cmdError c info) ∧ t = s.cmdError c info :=
  finishCommand_next (exec_eq_body i s ▸ h)

/-- Settles O29: a success changes what the body wrote and completes, an error changes no register but STATUS and
ERRINFO. -/
theorem commandFrame : Obligations.CommandFrame := by
  constructor
  · intro s t h
    rcases exec_next h with ⟨s', hs', rfl⟩ | ⟨c, info, -, rfl⟩
    · obtain ⟨-, -, rfl⟩ | ⟨hne, -⟩ := body_ok hs'
      · rfl
      · exact absurd rfl hne
    · rfl
  · intro i s t hne h
    rcases exec_next h with ⟨s', hs', rfl⟩ | ⟨c, info, -, rfl⟩
    · obtain ⟨hpow, -⟩ | ⟨-, m, rfl, hout, -⟩ := body_ok hs'
      · exact absurd hpow hne
      · exact ⟨rfl, hout⟩
    · exact ⟨rfl, fun _ _ => rfl⟩

end Sys2Proof.Machine
end

section
/-! PROOFS of 40_modarith.md: the reduction unit, the Fermat inverse, POWMOD and the closure of the transforms. -/

namespace Sys2Proof.Machine

/-! ## The reduction unit (R100-R102) -/

theorem add_lt_of_fieldElements {a b : Nat} (ha : a < Config.modulus) (hb : b < Config.modulus) :
    a + b < 2 * Config.modulus - 1 := by omega

theorem add_modulus_sub_bounds {a b : Nat} (ha : a < Config.modulus) (hb : b < Config.modulus) :
    1 ≤ a + Config.modulus - b ∧ a + Config.modulus - b ≤ 2 * Config.modulus - 1 := by omega

/-- The literal of R102's bound is the square of the modulus. -/
theorem mul_le_of_fieldElements {a b : Nat} (ha : a < Config.modulus) (hb : b < Config.modulus) :
    a * b ≤ 996491788296388609 :=
  calc a * b ≤ Config.modulus * Config.modulus := Nat.mul_le_mul ha.le hb.le
    _ = 996491788296388609 := by decide

@[simp] theorem mulM_zero (a : Nat) : mulM a 0 = 0 := by rw [mulM, Nat.mul_zero, Nat.zero_mod]

@[simp] theorem zero_mulM (a : Nat) : mulM 0 a = 0 := by rw [mulM_comm, mulM_zero]

/-- Settles O6: the conditional subtraction is the reduction of a sum below twice the modulus. -/
theorem reductionUnitIsExact : Obligations.ReductionUnitIsExact := by
  refine ⟨fun a b ha hb => ?_, by decide, by decide, by decide, by decide, by decide, by decide, by decide,
    fun x hx => ⟨zero_mulM x, one_mulM hx⟩⟩
  obtain ⟨hlow, hhigh⟩ := add_modulus_sub_bounds ha hb
  exact ⟨addM_eq ha hb, addM_lt ha hb, subM_eq ha hb, subM_lt ha hb, rfl, mulM_lt a b, add_lt_of_fieldElements ha hb,
    by decide, hlow, hhigh, mul_le_of_fieldElements ha hb, by decide⟩

/-! ## The Fermat inverse (R105) -/

theorem mulM_mod_left (a b : Nat) : mulM (a % Config.modulus) b = mulM a b := Nat.mod_mul_mod a b Config.modulus

theorem inverse_eq_pow (x : Nat) : inverse x = x ^ (Config.modulus - 2) % Config.modulus :=
  powmod_eq_pow x _ _ (by decide)

/-- The field's inverse, as numbers. -/
theorem mulM_inverse {x : Nat} (hx : x % Config.modulus ≠ 0) : mulM x (inverse x) = 1 := by
  have : Fact (Nat.Prime Config.modulus) := ⟨modulus_prime⟩
  have hx' : (x : ZMod Config.modulus) ≠ 0 := fun h =>
    hx (Nat.mod_eq_zero_of_dvd ((ZMod.natCast_eq_zero_iff x _).1 h))
  refine eq_of_cast_eq (K := ZMod Config.modulus) (mulM_lt _ _) (by decide) ?_
  rw [cast_mulM, inverse_mul_self hx', Nat.cast_one]

theorem inverse_pos {x : Nat} (hx : x % Config.modulus ≠ 0) : 1 ≤ inverse x := by
  refine Nat.one_le_iff_ne_zero.2 fun h0 => ?_
  have h := mulM_inverse hx
  rw [h0, mulM_zero] at h
  exact absurd h (by decide)

theorem eq_inverse_of_mulM_eq_one {x y : Nat} (hx : x % Config.modulus ≠ 0) (hy : y < Config.modulus)
    (hxy : mulM x y = 1) : y = inverse x :=
  calc y = mulM y (mulM x (inverse x)) := by rw [mulM_inverse hx, mulM_one hy]
    _ = mulM (mulM x y) (inverse x) := by rw [← mulM_assoc, mulM_comm y x]
    _ = inverse x := by rw [hxy, one_mulM (inverse_lt x)]

theorem inverse_eq_zero {x : Nat} (hx : x % Config.modulus = 0) : inverse x = 0 := by
  rw [inverse_eq_pow]
  exact Nat.mod_eq_zero_of_dvd (dvd_pow (Nat.dvd_of_mod_eq_zero hx) (by decide))

/-- Settles O9: the inverse in the field of M elements, which exists as M is prime; unique as `mulM` is associative. -/
theorem fermatInverse : Obligations.FermatInverse := by
  refine ⟨by decide, by decide, by decide, by decide, fun x => ⟨fun hx => ?_, inverse_eq_zero⟩⟩
  rw [mulM_mod_left]
  refine ⟨inverse_pos hx, inverse_lt x, mulM_inverse hx, fun y hy hxy => ?_⟩
  rw [mulM_mod_left] at hxy
  exact eq_inverse_of_mulM_eq_one hx hy hxy

/-- Fermat's little theorem in numbers. -/
theorem pow_modulus_pred {x : Nat} (hx : x % Config.modulus ≠ 0) : x ^ (Config.modulus - 1) % Config.modulus = 1 := by
  have h := mulM_inverse hx
  rwa [inverse_eq_pow, mulM, Nat.mul_mod_mod, ← Nat.pow_succ'] at h

/-! ## POWMOD (R104, R108, R206) -/

/-- POWMOD with modulus 0 (R206). -/
theorem exec_powmod_of_arg2_zero {s : State} (h : s.arg2 = 0) :
    exec .powmod s = .next { s with status := 0x506, errinfo := 0, pending := false } := by
  have hb : body .powmod s = .error (.cmdError .modulusZero 0) := if_pos (congrArg BitVec.toNat h)
  rw [exec_of_error hb]
  rfl

/-- POWMOD with another modulus, for any word that is the power (R104). -/
theorem exec_powmod_of_pow {s : State} {v : Word} (hm : s.arg2.toNat ≠ 0)
    (hv : s.arg0.toNat ^ s.arg1.toNat % s.arg2.toNat = v.toNat) :
    exec .powmod s = .next { s with result := v, status := 0x2, pending := false } := by
  have hp : powmod s.powBase s.powExponent s.powModulus = v.toNat := (powmod_eq_pow _ _ _ s.arg1.isLt).trans hv
  have hb : body .powmod s = .ok (s.setResult v) := by
    simp only [body, powmodBody, hp, wordOf, BitVec.ofNat_toNat, BitVec.setWidth_eq]
    exact if_neg hm
  rw [exec_eq_body, hb]
  rfl

theorem pow_mod_toNat (b e : Nat) {m : Word} (hm : m.toNat ≠ 0) : b ^ e % m.toNat = (wordOf (b ^ e % m.toNat)).toNat := by
  rw [BitVec.toNat_ofNat, Nat.mod_eq_of_lt ((Nat.mod_lt _ (Nat.pos_of_ne_zero hm)).trans m.isLt)]

/-- Settles O7: the square-and-multiply loop is the power, and a power below the modulus fits RESULT. -/
theorem powmodComputesThePower : Obligations.PowmodComputesThePower := by
  refine ⟨(decode_eq_ok _ _).2 encode_powmod.symm, fun s => ⟨exec_powmod_of_arg2_zero, fun h => ?_⟩⟩
  have hm : s.arg2.toNat ≠ 0 := fun h0 => h (BitVec.eq_of_toNat_eq h0)
  exact exec_powmod_of_pow hm (pow_mod_toNat _ _ hm)

/-- Settles O8: the laws of the power, the third being Fermat's little theorem for 3. -/
theorem powmodLaws : Obligations.PowmodLaws := by
  refine ⟨fun s he hm => ?_, fun s he hm => ?_, fun s hb he hm => ?_⟩
  · refine exec_powmod_of_pow (by omega) ?_
    rw [he, show (0 : Word).toNat = 0 from rfl, pow_zero, Nat.mod_eq_of_lt hm]
    rfl
  · refine exec_powmod_of_pow (by omega) ?_
    rw [he, show (1 : Word).toNat = 1 from rfl, pow_one, BitVec.toNat_umod]
  · refine exec_powmod_of_pow (by rw [hm]; decide) ?_
    rw [he, hm, show (998244352 : Word).toNat = Config.modulus - 1 from rfl,
      show (998244353 : Word).toNat = Config.modulus from rfl]
    exact pow_modulus_pred (by rw [hb]; decide)

/-! ## The closure of the transforms (R106) -/

theorem statusError_ne_statusDone (c : ErrCode) : statusError c ≠ statusDone := by cases c <;> decide

/-- A command that ends with STATUS 0x2 is one whose body succeeded (R188, R201). -/
theorem body_ok_of_status_done {i : Instr} {s t : State} (h : exec i s = .next t) (hst : t.status = statusDone) :
    ∃ s', body i s = .ok s' ∧ t = s'.complete := by
  rcases exec_next h with hok | ⟨c, info, -, rfl⟩
  · exact hok
  · exact absurd hst (statusError_ne_statusDone c)

theorem Memory.holds.exists_fieldElement {m : Memory} {p k : Nat} {a : List Nat} (h : m.holds p a) (hlo : p ≤ k)
    (hhi : k < p + a.length) : ∃ v, m.read? k = some v ∧ v.toNat < Config.modulus := by
  obtain ⟨i, rfl⟩ := Nat.exists_eq_add_of_le hlo
  obtain ⟨hlt, hread⟩ := h i (by omega)
  refine ⟨_, hread, ?_⟩
  rw [BitVec.toNat_ofNat]
  exact (Nat.mod_le _ _).trans_lt hlt

/-- Settles O22: a completed transform has stored its network's values, and each network maps field elements to field
elements. -/
theorem transformOutputsAreFieldElements : Obligations.TransformOutputsAreFieldElements := by
  intro i s t hi h hst k hlo hhi
  obtain ⟨s', hbody, rfl⟩ := body_ok_of_status_done h hst
  obtain ⟨network, hgood, hnet⟩ := body_transform s hi
  obtain ⟨e, a, m, -, hlen, -, -, ha, rfl, hheld, -⟩ := transformBody_ok hgood (hnet ▸ hbody)
  obtain ⟨hl, -⟩ := hgood e (permuted e a) (permuted_length e a) (permuted_fieldSeq ha.fieldSeq)
  exact hheld.exists_fieldElement hlo (by rw [hl, ← hlen]; exact hhi)

end Sys2Proof.Machine
end

section
/-! PROOFS of 41_permutation.md: the table of R130, the words a completed permutation has found written, and BITREV. -/

namespace Sys2Proof.Machine

/-! ## The table (R130, R133) -/

/-- The finished table meets the recurrence, not only the table under construction. -/
theorem revtable_recurrence {h i : Nat} (hi : 1 ≤ i) (hn : i < 2 ^ h) :
    (revtable (2 ^ h)).getD i 0 = revEntry (2 ^ h) (revtable (2 ^ h)) i := by
  rw [revtable_getD hn, revEntry_eq hi hn fun j hj => revtable_getD (hj.trans hn)]

theorem revtable_involution {h i : Nat} (hi : i < 2 ^ h) :
    (revtable (2 ^ h)).getD ((revtable (2 ^ h)).getD i 0) 0 = i := by
  rw [revtable_getD hi, revtable_getD (reverseBits_lt h i), reverseBits_reverseBits hi]

/-- Settles O10: the table holds the reversals, which are in range and meet the recurrence. -/
theorem revtableReversesBits : Obligations.RevtableReversesBits := by
  rintro h n rfl
  refine ⟨revtable_length h, ?_, fun i => revtable_recurrence, fun i hi => ?_⟩
  · rw [revtable_getD (Nat.two_pow_pos h), reverseBits_zero]
  · rw [revtable_getD hi]
    exact ⟨reverseBits_lt h i, rfl⟩

/-! ## Which words a permutation finds written (R131, R211) -/

/-- A swap writes only words it has read, so it writes no unwritten word. -/
theorem Memory.written_of_swap {m m' : Memory} {p q k : Nat} (h : m.swap p q = .ok m')
    (hk : ∃ v, m'.read? k = some v) : ∃ v, m.read? k = some v := by
  obtain ⟨x, y, hx, hy, rfl⟩ := Memory.swap_eq_ok h
  by_cases hq : q = k
  · exact ⟨y, hq ▸ hy⟩
  · by_cases hp : p = k
    · exact ⟨x, hp ▸ hx⟩
    · rwa [Memory.read?_write_other _ _ hq, Memory.read?_write_other _ _ hp] at hk

/-- A completed swap loop found both words of each pair it swapped written. -/
theorem bitrevLoop_ok_written {p : Nat} {rev : List Nat} : ∀ {is : List Nat} {m m' : Memory},
    bitrevLoop p rev is m = .ok m' → ∀ i ∈ is, i < rev.getD i 0 →
    (∃ v, m.read? (p + i) = some v) ∧ ∃ v, m.read? (p + rev.getD i 0) = some v := by
  intro is
  induction is with
  | nil => simp
  | cons j is ih =>
    intro m m' h i hi hlt
    simp only [bitrevLoop] at h
    split at h
    · split at h
      · cases h
      · rename_i hsw
        rcases List.mem_cons.1 hi with rfl | hi
        · obtain ⟨x, y, hx, hy, -⟩ := Memory.swap_eq_ok hsw
          exact ⟨⟨x, hx⟩, ⟨y, hy⟩⟩
        · exact (ih h i hi hlt).imp (Memory.written_of_swap hsw) (Memory.written_of_swap hsw)
    · rename_i hfix
      rcases List.mem_cons.1 hi with rfl | hi
      · exact absurd hlt hfix
      · exact ih h i hi hlt

/-- A completed `bitrev` found every word that moves written: a moving index is the lower or the upper one of its pair. -/
theorem bitrev_ok_written {m m' : Memory} {p h : Nat} (hb : bitrev m p (2 ^ h) = .ok m') {i : Nat} (hi : i < 2 ^ h)
    (hne : reverseBits h i ≠ i) : ∃ v, m.read? (p + i) = some v := by
  have hpair : ∀ j < 2 ^ h, j < reverseBits h j →
      (∃ v, m.read? (p + j) = some v) ∧ ∃ v, m.read? (p + reverseBits h j) = some v := fun j hj hlt => by
    rw [← revtable_getD hj] at hlt ⊢
    exact bitrevLoop_ok_written hb j (List.mem_range.2 hj) hlt
  rcases Nat.lt_or_gt_of_ne hne with hlt | hgt
  · have h2 := (hpair _ (reverseBits_lt h i) (by rwa [reverseBits_reverseBits hi])).2
    rwa [reverseBits_reverseBits hi] at h2
  · exact (hpair i hi hgt).1

/-- `bitrev` stops exactly when a word that moves is unwritten. -/
theorem bitrev_error_iff {m : Memory} {p h : Nat} : (∃ f, bitrev m p (2 ^ h) = .error f) ↔
    ∃ i, i < 2 ^ h ∧ (revtable (2 ^ h)).getD i 0 ≠ i ∧ m.read? (p + i) = none := by
  constructor
  · rintro ⟨f, hf⟩
    obtain ⟨i, hi, hne, -, hnone⟩ := bitrev_eq_error hf
    exact ⟨i, hi, by rwa [revtable_getD hi], hnone⟩
  · rintro ⟨i, hi, hne, hnone⟩
    rw [revtable_getD hi] at hne
    cases hb : bitrev m p (2 ^ h) with
    | error f => exact ⟨f, rfl⟩
    | ok m' =>
      obtain ⟨v, hv⟩ := bitrev_ok_written hb hi hne
      simp [hnone] at hv

theorem bitrev_of_moves_written {m : Memory} {p h : Nat}
    (hw : ∀ i, i < 2 ^ h → (revtable (2 ^ h)).getD i 0 ≠ i → ∃ v, m.read? (p + i) = some v) :
    ∃ m', bitrev m p (2 ^ h) = .ok m' :=
  bitrev_of_written fun i hi hne => hw i hi (by rwa [revtable_getD hi])

/-- A second `bitrev` on a canonical DMEM undoes the first (R133). -/
theorem bitrev_bitrev {m m' : Memory} {p h words : Nat} (hwf : m.wf) (hin : m.within words)
    (hb : bitrev m p (2 ^ h) = .ok m') : bitrev m' p (2 ^ h) = .ok m := by
  obtain ⟨hread, hout⟩ := bitrev_ok hb
  have hmoves : ∀ i < 2 ^ h, reverseBits h i ≠ i → ∃ v, m'.read? (p + i) = some v := fun i hi hne => by
    rw [hread i hi]
    exact bitrev_ok_written hb (reverseBits_lt h i) (by rw [reverseBits_reverseBits hi]; exact hne.symm)
  obtain ⟨m₂, hb₂⟩ := bitrev_of_written hmoves
  obtain ⟨hread₂, hout₂⟩ := bitrev_ok hb₂
  obtain ⟨hwf', hin'⟩ := bitrev_wf hwf hin hb
  have hback : m₂ = m := Memory.ext_read? (bitrev_wf hwf' hin' hb₂).1 hwf fun k => by
    by_cases hk : p ≤ k ∧ k < p + 2 ^ h
    · obtain ⟨i, rfl⟩ := Nat.exists_eq_add_of_le hk.1
      have hi : i < 2 ^ h := by omega
      rw [hread₂ i hi, hread _ (reverseBits_lt h i), reverseBits_reverseBits hi]
    · rw [hout₂ k hk, hout k hk]
  rw [hb₂, hback]

/-! ## The command BITREV (R132) -/

theorem bitrevBody_of_error {s : State} {k : Nat} {f : Fault} (hn : s.seqLength = 2 ^ k)
    (hp : s.seqStart + s.seqLength ≤ s.dmemWords) (hf : bitrev s.dmem s.seqStart (2 ^ k) = .error f) :
    bitrevBody s = .error (.modelFault f) := by
  have hpow : isPowerOfTwo 63 s.seqLength = true := (isPowerOfTwo_word s.len).2 ⟨k, hn⟩
  rw [bitrevBody, checkSequence_ok.2 ⟨hpow, hp⟩]
  simp only [hn, hf]

/-- BITREV on a legal sequence stops when `bitrev` does. -/
theorem exec_bitrev_of_error {s : State} {h : Nat} {f : Fault} (hn : s.len.toNat = 2 ^ h)
    (hp : s.base.toNat + 2 ^ h ≤ s.dmemsz.toNat) (hf : bitrev s.dmem s.base.toNat (2 ^ h) = .error f) :
    exec .bitrev s = .fault f := by
  have hb : body .bitrev s = .error (.modelFault f) := bitrevBody_of_error hn (by rwa [← hn] at hp) hf
  rw [exec_eq_body, hb]
  rfl

/-- Settles O11: `bitrev` completes on written moving words, and the command is `bitrev` on the sequence. -/
theorem bitrevPermutesTheSequence : Obligations.BitrevPermutesTheSequence := by
  intro s h hn hp hw
  obtain ⟨m, hm⟩ := bitrev_of_moves_written hw
  obtain ⟨hread, hout⟩ := bitrev_ok hm
  refine ⟨m, exec_bitrev_of hn hp hm, fun i hi => ?_, hout⟩
  rw [revtable_getD hi]
  exact hread i hi

/-- Settles O12: past its checks, which a legal sequence meets, the command stops exactly when `bitrev` does. -/
theorem bitrevFaultsExactlyOnUnwrittenMoves : Obligations.BitrevFaultsExactlyOnUnwrittenMoves := by
  intro s h hn hp
  rw [← bitrev_error_iff]
  cases hm : bitrev s.dmem s.base.toNat (2 ^ h) with
  | error f => simp [exec_bitrev_of_error hn hp hm]
  | ok m => simp [exec_bitrev_of hn hp hm]

/-- Settles O13: the second command runs on the first one's DMEM with the same BASE and LEN, and `bitrev` undoes itself. -/
theorem bitrevTwiceRestores : Obligations.BitrevTwiceRestores := by
  refine ⟨fun h i => revtable_involution, fun s h hn hp hwf hin hw => ?_⟩
  obtain ⟨m, hm⟩ := bitrev_of_moves_written hw
  exact ⟨_, exec_bitrev_of hn hp hm, exec_bitrev_of hn hp (bitrev_bitrev hwf hin hm)⟩

end Sys2Proof.Machine
end

section
/-! PROOFS of 42_transform.md: the two transforms against the rules' loops, against the sum of R148 and against each other,
and on one and two words. -/

namespace Sys2Proof.Machine

/-! ## The rules' loops (R140, R143) -/

/-- A transform leaves what an in-place loop leaves that gives the network's values. -/
theorem exec_transform_agrees {i : Instr} {network : List Nat → List Nat} (hg : GoodNetwork network) {s : State} {h : Nat}
    {a : List Nat} {E : Nat → Nat} (hi : body i s = transformBody network s) (hh : h ≤ 23) (hn : s.len.toNat = 2 ^ h)
    (hp : s.base.toNat + 2 ^ h ≤ s.dmemsz.toNat) (hl : a.length = 2 ^ h) (ha : s.dmem.holds s.base.toNat a)
    (hE : agrees E s.base.toNat (network (permuted h a))) :
    ∃ m : Memory, exec i s = .next { s with dmem := m, status := 0x2, pending := false } ∧
      (∀ j, j < 2 ^ h → m.read? (s.base.toNat + j) = some (wordOf (E (s.base.toNat + j)))) ∧
      s.dmem.sameOutside m s.base.toNat (2 ^ h) := by
  obtain ⟨m, hm, hheld, hout, -⟩ := exec_transform hg hi hh hn hp hl ha
  obtain ⟨hnl, -⟩ := hg h (permuted h a) (permuted_length h a) (permuted_fieldSeq ha.fieldSeq)
  refine ⟨m, hm, fun j hj => ?_, hout⟩
  rw [← hnl] at hj
  rw [hE j hj]
  exact hheld.read? hj

theorem agrees_of_forall {D : Nat → Nat} {p n : Nat} {a : List Nat} (hl : a.length = n)
    (hD : ∀ i, i < n → D (p + i) = a.getD i 0) : agrees D p a := fun i hi => hD i (hl ▸ hi)

/-- Settles O14: the loops of R140 give the values of Variant A's network, which the command stores. -/
theorem nttCtRunsTheLoops : Obligations.NttCtRunsTheLoops := fun _ _ _ _ hh hn hp hl ha hD =>
  exec_transform_agrees (ctNetwork_good _) rfl hh hn hp hl ha (loopNttCt_agrees hh hl (agrees_of_forall hl hD))

/-- Settles O15: the loops of R143 give the values of Variant B's network, which the command stores. -/
theorem nttGsRunsTheLoops : Obligations.NttGsRunsTheLoops := fun _ _ _ _ hh hn hp hl ha hD =>
  exec_transform_agrees (gsNetwork_good _) rfl hh hn hp hl ha (loopNttGs_agrees hh hl (agrees_of_forall hl hD))

/-! ## The natural-order transform (R148) -/

section
variable {K : Type} [Field K] [CharP K Config.modulus] {h r i : Nat} {a b : List Nat}

omit [CharP K Config.modulus] in
theorem elemF_permuted (hi : i < 2 ^ h) : elemF K (permuted h a) i = elemF K a (reverseBits h i) := by
  rw [elemF, permuted_getD a hi, elemF]

omit [CharP K Config.modulus] in
/-- The sum of R148 in numbers. -/
theorem cast_dft (ω n k : Nat) (a : List Nat) :
    ((∑ j ∈ Finset.range n, a.getD j 0 * ω ^ (j * k) : Nat) : K) = dftF (ω : K) n (elemF K a) k := by
  rw [Nat.cast_sum]
  exact Finset.sum_congr rfl fun j _ => by rw [Nat.cast_mul, Nat.cast_pow]; rfl

theorem FieldSeq.getD_eq_mod (hf : FieldSeq a) {x : Nat} (hx : elemF K a i = (x : K)) :
    a.getD i 0 = x % Config.modulus :=
  eq_of_cast_eq (K := K) (hf.getD_lt i) (Nat.mod_lt _ modulus_pos) (by rw [cast_mod]; exact hx)

/-- Sequences of field elements are equal when they are in the field. -/
theorem FieldSeq.ext_elemF (ha : FieldSeq a) (hb : FieldSeq b) (hl : a.length = b.length)
    (heq : ∀ i < a.length, elemF K a i = elemF K b i) : a = b := by
  refine List.ext_getElem hl fun i h₁ h₂ => ?_
  have := eq_of_cast_eq (K := K) (ha.getD_lt i) (hb.getD_lt i) (heq i h₁)
  rwa [List.getD_eq_getElem _ _ h₁, List.getD_eq_getElem _ _ h₂] at this

/-- NTT.CT's network on the permuted sequence is the sum of R148. -/
theorem ctNetwork_permuted_getD (hr : NonResidue r) (hh : h ≤ 23) (hf : FieldSeq a) {k : Nat} (hk : k < 2 ^ h) :
    (ctNetwork r (permuted h a)).getD k 0 =
      (∑ j ∈ Finset.range (2 ^ h), a.getD j 0 * stageRoot r (2 ^ h) ^ (j * k)) % Config.modulus := by
  have : Fact (Nat.Prime Config.modulus) := ⟨modulus_prime⟩
  have hlen := permuted_length h a
  have hfs := permuted_fieldSeq (h := h) hf
  refine (ctNetwork_fieldSeq r hlen hfs).getD_eq_mod (K := ZMod Config.modulus) ?_
  rw [cast_dft, cast_stageRoot]
  exact ctNetwork_dft hr hh hlen hfs (fun i hi => elemF_permuted hi) hk

end

/-- Settles O17: in the field the network is the transform of R148, and its outputs are reduced. -/
theorem nttCtComputesTheNtt : Obligations.NttCtComputesTheNtt := by
  refine ⟨by decide, fun s h a ω hh hn hp hl ha hr hω => ?_⟩
  obtain ⟨m, hm, hheld, -⟩ := exec_transform (i := .nttCt) (ctNetwork_good s.arg0.toNat) rfl hh hn hp hl ha
  refine ⟨m, hm, fun k hk => ?_⟩
  obtain ⟨hnl, -⟩ := ctNetwork_good s.arg0.toNat h _ (permuted_length h a) (permuted_fieldSeq ha.fieldSeq)
  rw [hheld.read? (hnl.symm ▸ hk), ctNetwork_permuted_getD hr hh ha.fieldSeq hk, hω]
  rfl

/-! ## Variant B against Variant A (R149) -/

/-- Variant B's network is Variant A's between two permutations. -/
theorem gsNetwork_eq_permuted_ctNetwork {r h : Nat} {b : List Nat} (hr : NonResidue r) (hh : h ≤ 23)
    (hl : b.length = 2 ^ h) (hf : FieldSeq b) :
    gsNetwork r b = permuted h (ctNetwork r (permuted h b)) := by
  have : Fact (Nat.Prime Config.modulus) := ⟨modulus_prime⟩
  have hlen := permuted_length h b
  have hfs := permuted_fieldSeq (h := h) hf
  obtain ⟨hgl, hgf⟩ := gsNetwork_good r h b hl hf
  refine hgf.ext_elemF (K := ZMod Config.modulus) (permuted_fieldSeq (ctNetwork_fieldSeq r hlen hfs))
    (by rw [hgl, permuted_length]) fun i hi => ?_
  have hi' : i < 2 ^ h := hgl ▸ hi
  rw [gsNetwork_dft hr hh hl hf hi', elemF_permuted hi',
    ctNetwork_dft hr hh hlen hfs (fun j hj => elemF_permuted hj) (reverseBits_lt h i)]

/-- BITREV on a sequence of field elements. -/
theorem exec_bitrev_holds {s : State} {h : Nat} {a : List Nat} (hn : s.len.toNat = 2 ^ h)
    (hp : s.base.toNat + 2 ^ h ≤ s.dmemsz.toNat) (hl : a.length = 2 ^ h) (ha : s.dmem.holds s.base.toNat a) :
    ∃ m : Memory, exec .bitrev s = .next { s with dmem := m, status := 0x2, pending := false } ∧
      m.holds s.base.toNat (permuted h a) ∧ s.dmem.sameOutside m s.base.toNat (2 ^ h) ∧
      (s.dmem.wf → s.dmem.within s.dmemsz.toNat → m.wf ∧ m.within s.dmemsz.toNat) := by
  obtain ⟨m, hm, hheld, hout⟩ := bitrev_holds hl ha
  exact ⟨m, exec_bitrev_of hn hp hm, hheld, hout, fun hw hin => bitrev_wf hw hin hm⟩

/-- Two memories that hold the same sequence and agree outside of it agree everywhere. -/
theorem Memory.holds.read?_eq {m m' : Memory} {p : Nat} {a : List Nat} (h : m.holds p a) (h' : m'.holds p a)
    (hout : m.sameOutside m' p a.length) (k : Nat) : m'.read? k = m.read? k := by
  by_cases hk : p ≤ k ∧ k < p + a.length
  · obtain ⟨i, rfl⟩ := Nat.exists_eq_add_of_le hk.1
    rw [h'.read? (by omega), h.read? (by omega)]
  · exact hout k hk

/-- Settles O18: both ways leave the same sequence, and a canonical DMEM that is the same outside of it. -/
theorem nttGsIsBitrevNttBitrev : Obligations.NttGsIsBitrevNttBitrev := by
  intro s h a hh hn hp hl ha hwf hin hr
  have hlp := permuted_length h a
  have hfp := permuted_fieldSeq (h := h) ha.fieldSeq
  obtain ⟨m₁, e₁, held₁, out₁, keep₁⟩ := exec_bitrev_holds hn hp hl ha
  obtain ⟨wf₁, in₁⟩ := keep₁ hwf hin
  obtain ⟨m₂, e₂, held₂, out₂, keep₂⟩ := exec_transform (i := .nttCt) (ctNetwork_good s.arg0.toNat)
    (s := { s with dmem := m₁, status := 0x2, pending := false }) rfl hh hn hp hlp held₁
  obtain ⟨wf₂, in₂⟩ := keep₂ wf₁ in₁
  obtain ⟨hl₂, -⟩ := ctNetwork_good s.arg0.toNat h _ (permuted_length h (permuted h a)) (permuted_fieldSeq hfp)
  obtain ⟨m₃, e₃, held₃, out₃, keep₃⟩ := exec_bitrev_holds
    (s := { s with dmem := m₂, status := 0x2, pending := false }) hn hp hl₂ held₂
  obtain ⟨m, e, held, out, keep⟩ := exec_transform (i := .nttGs) (gsNetwork_good s.arg0.toNat) rfl hh hn hp hl ha
  rw [gsNetwork_eq_permuted_ctNetwork hr hh hlp hfp] at held
  have hout : m₃.sameOutside m s.base.toNat (2 ^ h) := fun k hk =>
    (out k hk).trans (Memory.sameOutside_trans (Memory.sameOutside_trans out₁ out₂) out₃ k hk).symm
  obtain rfl : m = m₃ := Memory.ext_read? (keep hwf hin).1 (keep₃ wf₂ in₂).1
    (held₃.read?_eq held (by rwa [permuted_length]))
  exact ⟨_, _, _, e₁, e₂, e₃, e⟩

/-! ## One word and two (R145, R147, R171) -/

theorem permuted_one (x : Nat) : permuted 0 [x] = [x] := rfl

theorem permuted_two (x y : Nat) : permuted 1 [x, y] = [x, y] := rfl

theorem ctNetwork_one (r x : Nat) : ctNetwork r [x] = [x] := by
  have hlog : [x].length.log2 = 0 := Nat.log2_two_pow (n := 0)
  rw [ctNetwork, hlog, ctStages]

theorem gsNetwork_one (r x : Nat) : gsNetwork r [x] = [x] := by
  have hlog : [x].length.log2 = 0 := Nat.log2_two_pow (n := 0)
  rw [gsNetwork, hlog, gsStages]

theorem inverse_one : inverse 1 = 1 := by decide

theorem inverse_two : inverse 2 = 499122177 := by decide

theorem inttNetwork_one (r : Nat) {x : Nat} (hx : x < Config.modulus) : inttNetwork r [x] = [x] := by
  rw [inttNetwork, ctNetwork_one, List.length_singleton, inverse_one, List.map_singleton, mulM_one hx]

/-- One butterfly with twiddle 1. -/
theorem ctNetwork_two (r x : Nat) {y : Nat} (hy : y < Config.modulus) : ctNetwork r [x, y] = [addM x y, subM x y] := by
  have hlog : [x, y].length.log2 = 1 := Nat.log2_two_pow (n := 1)
  rw [ctNetwork, hlog]
  simp [ctStages, ctStage, mapWindows, ctWindow, twiddles, one_mulM hy]

theorem gsNetwork_two (r : Nat) {x y : Nat} (hx : x < Config.modulus) (hy : y < Config.modulus) :
    gsNetwork r [x, y] = [addM x y, subM x y] := by
  have hlog : [x, y].length.log2 = 1 := Nat.log2_two_pow (n := 1)
  rw [gsNetwork, hlog]
  simp [gsStages, gsStage, mapWindows, gsWindow, twiddles, one_mulM (subM_lt hx hy)]

theorem inttNetwork_two (r x : Nat) {y : Nat} (hy : y < Config.modulus) :
    inttNetwork r [x, y] = [mulM (addM x y) 499122177, mulM (subM x y) 499122177] := by
  rw [inttNetwork, ctNetwork_two _ _ hy, show [x, y].length = 2 from rfl, inverse_two]
  rfl

/-- Every transform command leaves one word as it is. -/
theorem exists_network_one {i : Instr} (s : State) {x : Nat} (hi : i = .nttCt ∨ i = .nttGs ∨ i = .intt)
    (hx : x < Config.modulus) :
    ∃ network, GoodNetwork network ∧ body i s = transformBody network s ∧ network [x] = [x] := by
  rcases hi with rfl | rfl | rfl
  · exact ⟨_, ctNetwork_good _, rfl, ctNetwork_one _ x⟩
  · exact ⟨_, gsNetwork_good _, rfl, gsNetwork_one _ x⟩
  · exact ⟨_, inttNetwork_good _, rfl, inttNetwork_one _ hx⟩

/-- A transform of two words, given what its network makes of them. -/
theorem exec_transform_two {i : Instr} {network : List Nat → List Nat} (hg : GoodNetwork network) {s : State} {x y : Nat}
    {b : List Nat} (hi : body i s = transformBody network s) (hn : s.len = 2)
    (hp : s.base.toNat + 2 ≤ s.dmemsz.toNat) (ha : s.dmem.holds s.base.toNat [x, y]) (hb : network [x, y] = b) :
    ∃ m : Memory, exec i s = .next { s with dmem := m, status := 0x2, pending := false } ∧ m.holds s.base.toNat b := by
  obtain ⟨m, hm, hheld, -⟩ := exec_transform hg (h := 1) hi (by decide) (congrArg BitVec.toNat hn) hp rfl ha
  rw [permuted_two, hb] at hheld
  exact ⟨m, hm, hheld⟩

/-- Settles O23: one word passes through no stage, two words through one butterfly with twiddle 1. -/
theorem shortTransforms : Obligations.ShortTransforms := by
  refine ⟨fun i s x hi hn hp ha => ?_, fun s x y hn hp ha => ?_⟩
  · obtain ⟨network, hg, hbody, hnet⟩ := exists_network_one s hi (ha.fieldSeq x (by simp))
    obtain ⟨m, hm, hheld, hout, -⟩ := exec_transform hg (h := 0) hbody (by decide) (congrArg BitVec.toNat hn) hp rfl ha
    rw [permuted_one, hnet] at hheld
    exact ⟨m, hm, ha.read?_eq hheld hout⟩
  · have hx := ha.fieldSeq x (by simp)
    have hy := ha.fieldSeq y (by simp)
    refine ⟨?_, exec_transform_two (inttNetwork_good _) rfl hn hp ha (inttNetwork_two _ x hy)⟩
    rintro i (rfl | rfl)
    · exact exec_transform_two (ctNetwork_good _) rfl hn hp ha (ctNetwork_two _ x hy)
    · exact exec_transform_two (gsNetwork_good _) rfl hn hp ha (gsNetwork_two _ hx hy)

end Sys2Proof.Machine
end

section
/-! PROOFS of 43_inverse.md: INTT against the rules' loops, against the sum of R172, and the round trip after NTT.CT. -/

namespace Sys2Proof.Machine

/-- Settles O16: the loops of R170 give the values of the inverse network, which the command stores. -/
theorem inttRunsTheLoops : Obligations.InttRunsTheLoops := fun _ _ _ _ hh hn hp hl ha hD =>
  exec_transform_agrees (inttNetwork_good _) rfl hh hn hp hl ha
    (loopIntt_agrees hh hl ha.fieldSeq (agrees_of_forall hl hD))

/-! ## The inverse transform (R172) -/

section
variable {K : Type} [Field K] [CharP K Config.modulus] {h r j : Nat} {a b : List Nat}

/-- Inverse numbers modulo M are inverse field elements. -/
theorem cast_mul_eq_one {x y : Nat} (hxy : x * y % Config.modulus = 1) : (x : K) * y = 1 := by
  rw [← Nat.cast_mul, ← cast_mod, hxy, Nat.cast_one]

/-- The last loop of R170 in the field: each element times the inverse of the length. -/
theorem elemF_inttNetwork (hl : b.length = 2 ^ h) (hf : FieldSeq b) (hj : j < 2 ^ h) :
    elemF K (inttNetwork r b) j = elemF K (ctNetwork (inverse r) b) j * ((inverse (2 ^ h) : Nat) : K) := by
  rw [elemF, inttNetwork_getD (by rwa [ctNetwork_length _ hl hf, hl]), cast_mulM, hl]
  rfl

/-- INTT's network on the permuted sequence is the transform with the inverse root, divided by the length. -/
theorem elemF_inttNetwork_permuted (hr : NonResidue r) (hh : h ≤ 23) (hf : FieldSeq a) (hj : j < 2 ^ h) :
    elemF K (inttNetwork r (permuted h a)) j =
      dftF (rootF K (inverse r) (2 ^ h)) (2 ^ h) (elemF K a) j * ((inverse (2 ^ h) : Nat) : K) := by
  have hlen := permuted_length h a
  have hfs := permuted_fieldSeq (h := h) hf
  rw [elemF_inttNetwork hlen hfs hj, ctNetwork_dft hr.inverse hh hlen hfs (fun i hi => elemF_permuted hi) hj]

/-- The same with any inverses of the forward root and of the length, which are those the network uses. -/
theorem elemF_inttNetwork_of_inverses (hr : NonResidue r) (hh : h ≤ 23) (hf : FieldSeq a) {w' nInv : Nat}
    (hw : stageRoot r (2 ^ h) * w' % Config.modulus = 1) (hn : 2 ^ h * nInv % Config.modulus = 1) (hj : j < 2 ^ h) :
    elemF K (inttNetwork r (permuted h a)) j = nInv * dftF (w' : K) (2 ^ h) (elemF K a) j := by
  have hwK := cast_mul_eq_one (K := K) hw
  have hnK := cast_mul_eq_one (K := K) hn
  rw [cast_stageRoot] at hwK
  have hroot : rootF K (inverse r) (2 ^ h) = w' := inv_unique (rootF_inverse hr _) hwK
  have hlength : ((inverse (2 ^ h) : Nat) : K) = nInv :=
    inv_unique (inverse_mul_self (left_ne_zero_of_mul_eq_one hnK)) hnK
  rw [elemF_inttNetwork_permuted hr hh hf hj, hroot, hlength, mul_comm]

end

/-- INTT's network on the permuted sequence is the sum of R172. -/
theorem inttNetwork_permuted_getD {h r j w' nInv : Nat} {a : List Nat} (hr : NonResidue r) (hh : h ≤ 23)
    (hf : FieldSeq a) (hw : stageRoot r (2 ^ h) * w' % Config.modulus = 1) (hn : 2 ^ h * nInv % Config.modulus = 1)
    (hj : j < 2 ^ h) : (inttNetwork r (permuted h a)).getD j 0 =
      nInv * (∑ k ∈ Finset.range (2 ^ h), a.getD k 0 * w' ^ (j * k)) % Config.modulus := by
  have : Fact (Nat.Prime Config.modulus) := ⟨modulus_prime⟩
  refine (inttNetwork_fieldSeq r _).getD_eq_mod (K := ZMod Config.modulus) ?_
  simp only [Nat.mul_comm j]
  rw [elemF_inttNetwork_of_inverses hr hh hf hw hn hj, Nat.cast_mul, cast_dft]

/-- Settles O19: in the field the inverse network is the transform of R172, and its outputs are reduced. -/
theorem inttComputesTheInverseNtt : Obligations.InttComputesTheInverseNtt := by
  intro s h a w' nInv hh hn hp hl ha hr hw hnInv
  obtain ⟨m, hm, hheld, -⟩ := exec_transform (i := .intt) (inttNetwork_good s.arg0.toNat) rfl hh hn hp hl ha
  refine ⟨m, hm, fun j hj => ?_⟩
  obtain ⟨hnl, -⟩ := inttNetwork_good s.arg0.toNat h _ (permuted_length h a) (permuted_fieldSeq ha.fieldSeq)
  rw [hheld.read? (hnl.symm ▸ hj), inttNetwork_permuted_getD hr hh ha.fieldSeq hw hnInv hj]

/-! ## The round trip (R174) -/

section
variable {K : Type} [Field K] [CharP K Config.modulus] {h r i : Nat} {a : List Nat}

omit [CharP K Config.modulus] in
/-- A transform reads the `n` values below `n` only. -/
theorem dftF_congr {ω : K} {n : Nat} {f g : Nat → K} (hfg : ∀ i < n, f i = g i) (k : Nat) :
    dftF ω n f k = dftF ω n g k :=
  Finset.sum_congr rfl fun i hi => by rw [hfg i (Finset.mem_range.1 hi)]

/-- A transform's length is no multiple of M. -/
theorem cast_two_pow_ne_zero (hh : h ≤ 23) : ((2 ^ h : Nat) : K) ≠ 0 := fun hzero => by
  have hlt : 2 ^ h < Config.modulus := (Nat.pow_le_pow_right (by decide) hh).trans_lt (by decide)
  have hpow : 2 ^ h = 0 := eq_of_cast_eq (K := K) hlt modulus_pos (by rw [hzero, Nat.cast_zero])
  exact absurd hpow (Nat.two_pow_pos h).ne'

/-- The inversion theorem of the transform, for the two networks, each with its permutation. -/
theorem elemF_inttNetwork_ctNetwork (hr : NonResidue r) (hh : h ≤ 23) (hf : FieldSeq a) (hi : i < 2 ^ h) :
    elemF K (inttNetwork r (permuted h (ctNetwork r (permuted h a)))) i = elemF K a i := by
  have hlen := permuted_length h a
  have hfs := permuted_fieldSeq (h := h) hf
  have hforward : ∀ k < 2 ^ h, elemF K (ctNetwork r (permuted h a)) k =
      dftF (rootF K r (2 ^ h)) (2 ^ h) (elemF K a) k := fun k hk =>
    ctNetwork_dft hr hh hlen hfs (fun _ hj => elemF_permuted hj) hk
  calc elemF K (inttNetwork r (permuted h (ctNetwork r (permuted h a)))) i
      = dftF (rootF K (inverse r) (2 ^ h)) (2 ^ h) (dftF (rootF K r (2 ^ h)) (2 ^ h) (elemF K a)) i *
          ((inverse (2 ^ h) : Nat) : K) := by
        rw [elemF_inttNetwork_permuted hr hh (ctNetwork_fieldSeq r hlen hfs) hi, dftF_congr hforward]
    _ = ((2 ^ h : Nat) : K) * ((inverse (2 ^ h) : Nat) : K) * elemF K a i := by
        rw [dftF_dftF (rootF_isPrimitiveRoot hr hh) (rootF_inverse hr _) _ hi, mul_right_comm]
    _ = elemF K a i := by rw [inverse_mul_self (cast_two_pow_ne_zero hh), one_mul]

end

/-- The inverse network undoes Variant A's. -/
theorem inttNetwork_ctNetwork {r h : Nat} {a : List Nat} (hr : NonResidue r) (hh : h ≤ 23) (hl : a.length = 2 ^ h)
    (hf : FieldSeq a) : inttNetwork r (permuted h (ctNetwork r (permuted h a))) = a := by
  have : Fact (Nat.Prime Config.modulus) := ⟨modulus_prime⟩
  have hct := ctNetwork_fieldSeq r (permuted_length h a) (permuted_fieldSeq hf)
  obtain ⟨hil, hif⟩ := inttNetwork_good r h _ (permuted_length h _) (permuted_fieldSeq hct)
  exact hif.ext_elemF (K := ZMod Config.modulus) hf (hil.trans hl.symm) fun i hi =>
    elemF_inttNetwork_ctNetwork hr hh hf (hil ▸ hi)

/-- Root 3 meets the condition of R148. -/
theorem nonResidue_three : NonResidue 3 := nttCtComputesTheNtt.1

/-- INTT after another transform with the same start, length and root: what the two networks leave. -/
theorem exec_transform_then_intt {i : Instr} {network : List Nat → List Nat} (hg : GoodNetwork network) {s : State}
    {h : Nat} {a : List Nat} (hi : body i s = transformBody network s) (hh : h ≤ 23) (hn : s.len.toNat = 2 ^ h)
    (hp : s.base.toNat + 2 ^ h ≤ s.dmemsz.toNat) (hl : a.length = 2 ^ h) (ha : s.dmem.holds s.base.toNat a) :
    ∃ (t : State) (m : Memory), exec i s = .next t ∧
      exec .intt t = .next { s with dmem := m, status := 0x2, pending := false } ∧
      m.holds s.base.toNat (inttNetwork s.arg0.toNat (permuted h (network (permuted h a)))) ∧
      s.dmem.sameOutside m s.base.toNat (2 ^ h) ∧ (s.dmem.wf → s.dmem.within s.dmemsz.toNat → m.wf) := by
  obtain ⟨hl₁, -⟩ := hg h _ (permuted_length h a) (permuted_fieldSeq ha.fieldSeq)
  obtain ⟨m₁, e₁, held₁, out₁, keep₁⟩ := exec_transform hg hi hh hn hp hl ha
  obtain ⟨m₂, e₂, held₂, out₂, keep₂⟩ := exec_transform (i := .intt) (inttNetwork_good s.arg0.toNat)
    (s := { s with dmem := m₁, status := 0x2, pending := false }) rfl hh hn hp hl₁ held₁
  refine ⟨_, m₂, e₁, e₂, held₂, Memory.sameOutside_trans out₁ out₂, fun hwf hin => ?_⟩
  obtain ⟨wf₁, in₁⟩ := keep₁ hwf hin
  exact (keep₂ wf₁ in₁).1

/-- Two canonical memories that hold the same sequence and agree outside of it are equal. -/
theorem Memory.holds.eq_of_sameOutside {m m' : Memory} {p n : Nat} {a : List Nat} (h : m.holds p a) (h' : m'.holds p a)
    (hl : a.length = n) (hout : m.sameOutside m' p n) (hw : m.wf) (hw' : m'.wf) : m' = m :=
  Memory.ext_read? hw' hw (h.read?_eq h' (hl.symm ▸ hout))

/-- Settles O20: the networks undo each other, and so the second command leaves the first one's DMEM. -/
theorem roundTripRestores : Obligations.RoundTripRestores := by
  intro s h a hh hn hp hl ha hwf hin hroot
  have hr : NonResidue s.arg0.toNat := by
    rcases hroot with h3 | hr
    · rw [h3]; exact nonResidue_three
    · exact hr
  obtain ⟨t, m, ht, hm, held, hout, keep⟩ :=
    exec_transform_then_intt (i := .nttCt) (ctNetwork_good s.arg0.toNat) rfl hh hn hp hl ha
  rw [inttNetwork_ctNetwork hr hh hl ha.fieldSeq] at held
  obtain rfl := ha.eq_of_sameOutside held hl hout hwf (keep hwf hin)
  exact ⟨t, ht, hm⟩

/-! ## Round trips that do not restore (R173, R174) -/

/-- INTT after another transform, on a DMEM with nothing but the sequence in it. -/
theorem exec_transform_then_intt_storeSeq {i : Instr} {network : List Nat → List Nat} (hg : GoodNetwork network)
    {s : State} {h : Nat} {a b : List Nat} (hi : body i s = transformBody network s) (hh : h ≤ 23)
    (hn : s.len.toNat = 2 ^ h) (hp : s.base.toNat + 2 ^ h ≤ s.dmemsz.toNat) (hl : a.length = 2 ^ h) (hf : FieldSeq a)
    (hd : s.dmem = Memory.storeSeq [] s.base.toNat a)
    (hb : inttNetwork s.arg0.toNat (permuted h (network (permuted h a))) = b) :
    ∃ t u, exec i s = .next t ∧ exec .intt t = .next u ∧ u.dmem = Memory.storeSeq [] s.base.toNat b := by
  obtain ⟨t, m, ht, hm, held, hout, keep⟩ :=
    exec_transform_then_intt hg hi hh hn hp hl (hd ▸ Memory.holds_storeSeq [] s.base.toNat hf)
  obtain ⟨hnl, hnf⟩ := hg h _ (permuted_length h a) (permuted_fieldSeq hf)
  obtain ⟨hbl, -⟩ := inttNetwork_good s.arg0.toNat h _ (permuted_length h _) (permuted_fieldSeq hnf)
  rw [hb] at held hbl
  have hcanonical : ∀ c : List Nat, (Memory.storeSeq [] s.base.toNat c).wf := Memory.storeSeq_wf List.Pairwise.nil _
  have hin : s.dmem.within s.dmemsz.toNat := hd ▸ Memory.storeSeq_within (by simp) _ _ (by omega)
  have hframe : (Memory.storeSeq [] s.base.toNat b).sameOutside m s.base.toNat (2 ^ h) := fun k hk => by
    rw [hout k hk, hd, Memory.storeSeq_sameOutside [] _ a k (hl ▸ hk), Memory.storeSeq_sameOutside [] _ b k (hbl ▸ hk)]
  exact ⟨t, _, ht, hm, (Memory.holds_storeSeq [] _ held.fieldSeq).eq_of_sameOutside held hbl hframe (hcanonical b)
    (keep (hd ▸ hcanonical a) hin)⟩

/-- NTT.CT of [1..8] with root 0: every stage root is 0, and so every twiddle but a window's first (R173). -/
theorem ctNetwork_zero_oneToEight : ctNetwork 0 (permuted 3 [1, 2, 3, 4, 5, 6, 7, 8]) =
    [36, 998244349, 998244349, 998244349, 998244349, 998244349, 998244349, 998244349] := by decide

theorem inttNetwork_zero_ctNetwork_oneToEight :
    inttNetwork 0 (permuted 3 (ctNetwork 0 (permuted 3 [1, 2, 3, 4, 5, 6, 7, 8]))) = [1, 5, 5, 5, 5, 5, 5, 5] := by
  have hinv : inverse 0 = 0 := inverse_eq_zero rfl
  have hct : ctNetwork 0 (permuted 3 [36, 998244349, 998244349, 998244349, 998244349, 998244349, 998244349, 998244349]) =
      [8, 40, 40, 40, 40, 40, 40, 40] := by decide
  rw [ctNetwork_zero_oneToEight, inttNetwork, hinv, hct, permuted_length]
  decide

/-- NTT.GS of [1..8] with root 3. -/
theorem gsNetwork_three_oneToEight : gsNetwork 3 (permuted 3 [1, 2, 3, 4, 5, 6, 7, 8]) =
    [36, 998244337, 346334868, 651909477, 223575251, 947836536, 50407815, 774669100] := by decide

theorem inttNetwork_three_gsNetwork_oneToEight :
    inttNetwork 3 (permuted 3 (gsNetwork 3 (permuted 3 [1, 2, 3, 4, 5, 6, 7, 8]))) =
      [1, 719629667, 98039586, 105953433, 654201668, 378295388, 856912918, 181700434] := by
  have hinv : inverse 3 = 332748118 := fermatInverse.1
  have hct : ctNetwork 332748118
      (permuted 3 [36, 998244337, 346334868, 651909477, 223575251, 947836536, 50407815, 774669100]) =
      [8, 765815571, 784316688, 847627464, 242391579, 31630045, 865837226, 455359119] := by decide
  rw [gsNetwork_three_oneToEight, inttNetwork, hinv, hct, permuted_length]
  decide

/-- Settles O21: each pair of networks evaluated on [1..8], which is alone in DMEM. -/
theorem roundTripExamplesThatFail : Obligations.RoundTripExamplesThatFail := by
  unfold Obligations.RoundTripExamplesThatFail
  intro s0
  have hf : FieldSeq [1, 2, 3, 4, 5, 6, 7, 8] := by decide
  have hct := exec_transform_then_intt_storeSeq (i := .nttCt) (s := s0) (h := 3) (ctNetwork_good 0) rfl (by decide) rfl
    (by decide) rfl hf rfl inttNetwork_zero_ctNetwork_oneToEight
  have hgs := exec_transform_then_intt_storeSeq (i := .nttGs) (s := { s0 with arg0 := 3 }) (h := 3) (gsNetwork_good 3) rfl
    (by decide) rfl (by decide) rfl hf rfl inttNetwork_three_gsNetwork_oneToEight
  exact ⟨hct, hgs⟩

end Sys2Proof.Machine
end

section
/-! PROOFS of 44_host_port.md, the shared facts: whose step it is while a command is pending, and what the step of each
transaction is when none is. -/

namespace Sys2Proof.Machine

/-! ## The hold (R181) -/

section
variable {s : State} (hp : s.pending = true)
include hp

/-- The engine moves whenever the transaction at the head of the queue is not the 64-bit STATUS read. -/
theorem step_of_held {tr : Transaction} {rest : List HostEvent} (hh : s.host = .transaction tr :: rest)
    (hne : tr ≠ .rrd 64 0x08) : step s = engineStep s := by
  have hheld : notHeld (.transaction tr) = false := by simpa [notHeld] using hne
  simp only [step, nextMover_of_held hp hh hheld]

theorem engineTurn_of_no_delay_or_no_event (h : s.delay = 0 ∨ s.host = []) : s.engineTurn :=
  ⟨hp, h.imp_right fun hnil e rest hcons => absurd (hnil.symm.trans hcons) (List.cons_ne_nil e rest).symm⟩

/-- The 64-bit STATUS read goes before the engine as long as the drawn delay lasts (R190; log 6). -/
theorem step_of_statusRead {rest : List HostEvent} (hd : s.delay ≠ 0)
    (hh : s.host = .transaction (.rrd 64 0x08) :: rest) :
    step s = .next ((s.takeEvent rest).spendDelay.respond (.value s.status)) := by
  have hmover : nextMover s = .outside (.transaction (.rrd 64 0x08)) (s.takeEvent rest).spendDelay := by
    simp [nextMover, hp, hh, hd, notHeld]
  rw [step, hmover]
  rfl

/-- A step either ends the pending command or is a STATUS read, which takes one off the delay (R189, R190). -/
theorem step_next_of_pending {t : State} (h : step s = .next t) :
    t.pending = false ∨
    s.delay ≠ 0 ∧ ∃ rest, t = (s.takeEvent rest).spendDelay.respond (.value s.status) := by
  rcases step_next h with ⟨-, hengine⟩ | ⟨e, rest, q, -, hmove, hq⟩ | ⟨hidle, -⟩
  · exact .inl (engineStep_next_frame hengine).1
  · rcases hq with ⟨-, hn, hd, rfl⟩ | ⟨hidle, -⟩
    · cases e with
      | reset =>
        cases hmove
        exact .inl rfl
      | transaction tr => exact .inr ⟨hd, rest, transact_of_notHeld hn hmove⟩
    · simp [hp] at hidle
  · simp [hp] at hidle

end

theorem runSteps_succ_of_next {s t : State} (h : step s = .next t) (k : Nat) : runSteps (k + 1) s = runSteps k t := by
  simp only [runSteps, h]

theorem runSteps_one (s : State) : runSteps 1 s = step s := by
  simp only [runSteps]
  cases step s <;> rfl

/-! ## The port's checks (R182) -/

theorem busErrorOf_of_width {words : Nat} {tr : Transaction} (hw : transactionWidth tr ≠ 64) :
    busErrorOf words tr = some .width := if_pos hw

theorem busErrorOf_of_location {words : Nat} {tr : Transaction} {k : BusErrorKind} (hw : transactionWidth tr = 64)
    (hl : locationError words tr = some k) : busErrorOf words tr = some k := by
  simp [busErrorOf, hw, hl]

theorem regAt_isNone {off : Nat} (h : ¬(off % 8 = 0 ∧ off ≤ 0x58)) : (regAt off).isNone = true := by
  simpa [← regAt_isSome_iff] using h

theorem busErrorOf_rwr_of_readOnly {words off : Nat} {r : RegName} {v : Word} (hr : regAt off = some r)
    (hw : regWritable r = false) : busErrorOf words (.rwr 64 off v) = some .readOnly := by
  simp [busErrorOf, transactionWidth, locationError, accessError, hr, hw]

/-! The offsets of the window, by what a write of them does (R21). -/

theorem regWritable_iff_regOffset_mem (r : RegName) :
    regWritable r = true ↔ regOffset r ∈ [0x00, 0x10, 0x18, 0x20, 0x28, 0x30] := by
  cases r <;> decide

theorem exists_readOnly_of_mem {off : Nat} (h : off ∈ [0x08, 0x38, 0x40, 0x48, 0x50, 0x58]) :
    ∃ r, regAt off = some r ∧ regWritable r = false := by
  simp only [List.mem_cons, List.not_mem_nil, or_false] at h
  rcases h with rfl | rfl | rfl | rfl | rfl | rfl <;> exact ⟨_, rfl, rfl⟩

/-! ## The step of a transaction when nothing is pending -/

section
variable {s : State} {rest : List HostEvent}

theorem step_of_busError {tr : Transaction} {k : BusErrorKind} (h : s.hostTurn (.transaction tr) rest)
    (hk : busErrorOf s.dmemWords tr = some k) : step s = .next ((s.takeEvent rest).busError k) := by
  have hk' : busErrorOf (s.takeEvent rest).dmemWords tr = some k := hk
  rw [step_of_hostTurn h, hostStep, transact, hk']

theorem step_of_noBusError {tr : Transaction} (h : s.hostTurn (.transaction tr) rest)
    (hk : busErrorOf s.dmemWords tr = none) : step s = perform (s.takeEvent rest) tr := by
  have hk' : busErrorOf (s.takeEvent rest).dmemWords tr = none := hk
  rw [step_of_hostTurn h, hostStep, transact, hk']

@[simp] theorem State.takeEvent_readReg (s : State) (rest : List HostEvent) (r : RegName) :
    (s.takeEvent rest).readReg r = s.readReg r := by cases r <;> rfl

/-- R184. -/
theorem step_of_rrd {off : Nat} {r : RegName} (h : s.hostTurn (.transaction (.rrd 64 off)) rest)
    (hr : regAt off = some r) : step s = .next ((s.takeEvent rest).respond (.value (s.readReg r))) := by
  rw [step_of_noBusError h (busErrorOf_none.2 ⟨rfl, locationError_register.2 ⟨r, hr⟩, rfl⟩), perform, registerRead, hr]
  simp

/-- R185. -/
theorem step_of_rwr {off : Nat} {r : RegName} {v : Word} (h : s.hostTurn (.transaction (.rwr 64 off v)) rest)
    (hr : regAt off = some r) (hw : regWritable r = true) :
    step s = .next (((s.takeEvent rest).writeReg r v).respond .written) := by
  have haccess : accessError (.rwr 64 off v) = none := by simp [accessError, hr, hw]
  rw [step_of_noBusError h (busErrorOf_none.2 ⟨rfl, locationError_register.2 ⟨r, hr⟩, haccess⟩), perform, registerWrite, hr]

/-- R183: what the model draws at acceptance is the completion delay, which R190 leaves free. -/
theorem step_of_cmdWrite {v : Word} (h : s.hostTurn (.transaction (.rwr 64 0x00 v)) rest) :
    ∃ delay draws, step s = .next { s with
      cmd := v, status := 0x1, errinfo := 0, pending := true, delay := delay, draws := draws,
      host := rest, responses := s.responses ++ [.written] } :=
  ⟨Config.completionDelay s.draws, s.draws + 1, step_of_rwr (r := .cmd) h rfl rfl⟩

/-- R186: the answer is what the fetch of the word gives. -/
theorem step_of_mrd {i : Nat} (h : s.hostTurn (.transaction (.mrd 64 i)) rest) (hi : i < s.dmemWords) :
    step s = dmemRead (s.takeEvent rest) i :=
  step_of_noBusError h (busErrorOf_none.2 ⟨rfl, locationError_index.2 hi, rfl⟩)

/-- R187. -/
theorem step_of_mwr {i : Nat} {v : Word} (h : s.hostTurn (.transaction (.mwr 64 i v)) rest) (hi : i < s.dmemWords) :
    step s = .next (((s.takeEvent rest).setDmem (s.dmem.write i v)).respond .written) :=
  step_of_noBusError h (busErrorOf_none.2 ⟨rfl, locationError_index.2 hi, rfl⟩)

end

end Sys2Proof.Machine
end

section
/-! PROOFS of 44_host_port.md: the hold, the end of a pending command and the engine step. -/

namespace Sys2Proof.Machine

/-- Settles O30: of the transactions only the 64-bit STATUS read moves before the engine, whose step answers nothing and
takes no event. -/
theorem holdUntilTheEngineStep : Obligations.HoldUntilTheEngineStep := by
  refine ⟨fun s tr rest hp hh hne => ?_, fun s rest hp hh hd => ?_, fun s hp h => ?_⟩
  · have hstep := step_of_held hp hh (hne 64)
    refine ⟨hstep, fun t ht => ?_⟩
    obtain ⟨hidle, hhost, hresp, -⟩ := engineStep_next_frame (hstep.symm.trans ht)
    exact ⟨hidle, hhost, hresp⟩
  · exact ⟨_, step_of_statusRead hp hd hh, hp, rfl⟩
  · exact step_of_engineTurn (engineTurn_of_no_delay_or_no_event hp h)

/-- Settles O31, by recursion on the delay: a step that leaves the command pending takes one off it. -/
theorem pendingCommandEnds : Obligations.PendingCommandEnds := fun s hp => by
  match hs : step s with
  | .fault f => exact ⟨1, by omega, .inr ⟨f, (runSteps_one s).trans hs⟩⟩
  | .refused r => exact absurd hs step_ne_refused
  | .next t =>
    rcases step_next_of_pending hp hs with hidle | ⟨hd, rest, rfl⟩
    · exact ⟨1, by omega, .inl ⟨t, (runSteps_one s).trans hs, hidle⟩⟩
    · obtain ⟨k, hk, hends⟩ := pendingCommandEnds ((s.takeEvent rest).spendDelay.respond (.value s.status)) hp
      simp only [State.respond_delay, State.spendDelay_delay, State.takeEvent_delay] at hk
      exact ⟨k + 1, by omega, by rwa [runSteps_succ_of_next hs]⟩
termination_by s => s.delay

/-- A latched word waits for the engine alone (R188; log 10). -/
theorem withFetchWord_engineTurn (s : State) (n w : Nat) : (s.withFetchWord n w).engineTurn := ⟨rfl, .inl rfl⟩

theorem withFetchWord_cmd (s : State) (w : Word) : (s.withFetchWord 64 w.toNat).cmd = w := by
  change wordOf (w.toNat % 2 ^ 64) = w
  rw [Nat.mod_eq_of_lt w.isLt, wordOf, BitVec.ofNat_toNat, BitVec.setWidth_eq]

/-- Settles O5: the step is the engine's, also when a narrow STATUS access is next, and the engine runs what CMD decodes
to. -/
theorem stepRunsTheDecodedCommand : Obligations.StepRunsTheDecodedCommand := by
  refine ⟨fun s i hi hturn => ?_, fun s w hw => ?_, fun s i => ?_⟩
  · have hstep : step s = engineStep s := by
      rcases hturn with hturn | ⟨hp, w, rest, hw, hh⟩
      · exact step_of_engineTurn hturn
      · exact step_of_held hp hh (by simpa using hw)
    exact hstep.trans (engineStep_of_decode hi)
  · rw [State.withFetchWord, Nat.mod_eq_of_lt hw]
    rfl
  · have hi : decode (s.withFetchWord 64 (encode i).toNat).cmd = .ok i :=
      (decode_eq_ok _ i).2 (withFetchWord_cmd s (encode i))
    exact (step_of_engineTurn (withFetchWord_engineTurn _ _ _)).trans (engineStep_of_decode hi)

/-- A poll of a pending command reads BUSY, the one legal STATUS with the pending bit set (R24, R190). -/
theorem step_of_poll {s : State} {rest : List HostEvent} (hi : s.Inv) (hp : s.pending = true) (hd : s.delay ≠ 0)
    (hh : s.host = .transaction (.rrd 64 0x08) :: rest) :
    step s = .next { s with delay := s.delay - 1, host := rest, responses := s.responses ++ [.value 0x1] } := by
  have hread := step_of_statusRead hp hd hh
  rw [status_of_pending hi hp] at hread
  exact hread

/-- The error statuses as numbers: `(code << 8) | 0x6` with a code from 1 to 5 (R201, R202). -/
theorem statusError_eq_wordOf (c : ErrCode) :
    ∃ code, 1 ≤ code ∧ code ≤ 5 ∧ statusError c = wordOf (code * 256 + 6) :=
  ⟨c.byte.toNat, by cases c <;> decide⟩

/-- Settles O38: before the engine step a poll reads BUSY; the engine step ends the command as a success or with one of the
errors. -/
theorem pollReadsBusyThenTheOutcome : Obligations.PollReadsBusyThenTheOutcome := by
  refine ⟨fun s rest hi hp hd hh => step_of_poll hi hp hd hh, fun s t hturn h => ?_⟩
  obtain ⟨hidle, -, -, -, -, -, -, -, -, -, -, hstatus⟩ := engineStep_next_frame (step_of_engineTurn hturn ▸ h)
  refine ⟨hidle, hstatus.imp_right ?_⟩
  rintro ⟨c, hc⟩
  rw [hc]
  exact statusError_eq_wordOf c

end Sys2Proof.Machine
end

section
/-! PROOFS of 44_host_port.md: the transactions, one obligation for each kind and one for the malformed ones. -/

namespace Sys2Proof.Machine

/-- Settles O37: the first check that fails gives the kind. -/
theorem malformedTransactionsAreBusErrors : Obligations.MalformedTransactionsAreBusErrors := by
  intro s tr rest h refused
  have narrow (hw : transactionWidth tr ≠ 64) : refused .width := step_of_busError h (busErrorOf_of_width hw)
  have misplaced {k} (hw : transactionWidth tr = 64) (hl : locationError s.dmemWords tr = some k) : refused k :=
    step_of_busError h (busErrorOf_of_location hw hl)
  refine ⟨?_, ?_, ?_, ?_⟩
  · rintro w off rfl
    exact ⟨narrow, fun hw hoff => misplaced hw (if_pos (regAt_isNone hoff))⟩
  · rintro w off v rfl
    refine ⟨narrow, fun hw hoff => misplaced hw (if_pos (regAt_isNone hoff)), ?_⟩
    rintro rfl hoff
    obtain ⟨r, hr, hro⟩ := exists_readOnly_of_mem hoff
    exact step_of_busError h (busErrorOf_rwr_of_readOnly hr hro)
  · rintro w i rfl
    exact ⟨narrow, fun hw hi => misplaced hw (if_pos hi)⟩
  · rintro w i v rfl
    exact ⟨narrow, fun hw hi => misplaced hw (if_pos hi)⟩

/-- Settles O32: acceptance is what a write of CMD does, and no write moves before the engine. -/
theorem commandAcceptance : Obligations.CommandAcceptance :=
  ⟨fun _ _ _ h => step_of_cmdWrite h, fun _ _ _ hp hh => step_of_held hp hh (by simp)⟩

/-- The twelve registers in the order of their offsets (R21). -/
def windowOrder : List RegName :=
  [.cmd, .status, .base, .len, .arg0, .arg1, .arg2, .result, .errinfo, .modulus, .proot, .dmemsz]

/-- Settles O33: the listed pairs are the registers' offsets and values. -/
theorem registerReads : Obligations.RegisterReads := by
  refine ⟨fun s off rest h => ⟨fun v hv => ?_, fun hoff => ?_⟩, fun s off rest hp hh => ⟨fun hne => ?_, ?_⟩⟩
  · have hv' : (off, v) ∈ windowOrder.map fun r => (regOffset r, s.readReg r) := hv
    obtain ⟨r, -, hrv⟩ := List.mem_map.1 hv'
    obtain ⟨rfl, rfl⟩ := Prod.mk.inj hrv
    exact step_of_rrd h (regAt_regOffset r)
  · exact step_of_busError h (busErrorOf_of_location rfl (if_pos (regAt_isNone hoff)))
  · exact step_of_held hp hh (by simpa using hne)
  · rintro rfl hi hd
    exact step_of_poll hi hp hd hh

/-- Settles O34: an offset is a writable register's, a read-only register's, or none's. -/
theorem registerWrites : Obligations.RegisterWrites := by
  refine ⟨fun s off v rest h => ⟨?_, ?_, ?_, ?_, ?_, ?_, fun hoff => ?_⟩, fun s off v rest hp hh => ?_⟩
  · rintro rfl; exact step_of_cmdWrite h
  · rintro rfl; exact step_of_rwr (r := .base) h rfl rfl
  · rintro rfl; exact step_of_rwr (r := .len) h rfl rfl
  · rintro rfl; exact step_of_rwr (r := .arg0) h rfl rfl
  · rintro rfl; exact step_of_rwr (r := .arg1) h rfl rfl
  · rintro rfl; exact step_of_rwr (r := .arg2) h rfl rfl
  · cases hr : regAt off with
    | none => exact ⟨.offset, step_of_busError h (busErrorOf_of_location rfl (if_pos (by simp [hr])))⟩
    | some r =>
      rw [regOffset_of_regAt hr, ← regWritable_iff_regOffset_mem, Bool.not_eq_true] at hoff
      exact ⟨.readOnly, step_of_busError h (busErrorOf_rwr_of_readOnly hr hoff)⟩
  · exact step_of_held hp hh (by simp)

/-- Settles O35: a read inside DMEM is the fetch of the word, which an unwritten word stops. -/
theorem dmemReads : Obligations.DmemReads := by
  refine ⟨fun s i rest h => ⟨fun hi => ⟨fun v hv => ?_, fun hnone => ?_⟩, fun hi => ?_⟩, fun s i rest hp hh => ?_⟩
  · have hfetch : (s.takeEvent rest).dmem.fetch i = .ok v := Memory.fetch_eq_ok.2 hv
    rw [step_of_mrd h hi, dmemRead, hfetch]
    rfl
  · have hfetch : (s.takeEvent rest).dmem.fetch i = .error (.unwrittenRead i) := Memory.fetch_eq_error.2 ⟨rfl, hnone⟩
    rw [step_of_mrd h hi, dmemRead, hfetch]
  · exact step_of_busError h (busErrorOf_of_location rfl (if_pos hi))
  · exact step_of_held hp hh (by simp)

/-- Settles O36: a write inside DMEM leaves the memory with that word written. -/
theorem dmemWrites : Obligations.DmemWrites := by
  refine ⟨fun s i v rest h => ⟨fun hi => ?_, fun hi => ?_⟩, fun s i v rest hp hh => ?_⟩
  · exact ⟨s.dmem.write i v, step_of_mwr h hi, Memory.read?_write_same _ _ _,
      fun k hk => Memory.read?_write_other _ _ hk.symm⟩
  · exact step_of_busError h (busErrorOf_of_location rfl (if_pos hi))
  · exact step_of_held hp hh (by simp)

end Sys2Proof.Machine
end

section
/-! PROOFS of 60_exceptions.md, the shared facts: the length limit of each sequence command, and which check an error
comes from. -/

namespace Sys2Proof.Machine

/-! ## Legal lengths (R203) -/

/-- The greatest exponent of a legal length: for BITREV the greatest one of a 64-bit LEN (log 21). -/
def lengthLimit (i : Instr) : Nat := if i = .bitrev then 63 else Config.hmax

theorem lengthLimit_of_ne_bitrev {i : Instr} (hi : i ≠ .bitrev) : lengthLimit i = Config.hmax := if_neg hi

/-- The legal lengths of a sequence command: the powers of two, for a transform up to `2^23`. -/
def LegalLength (i : Instr) (n : Nat) : Prop := ∃ h, (i ≠ .bitrev → h ≤ 23) ∧ n = 2 ^ h

theorem legalLength_bitrev {n : Nat} : LegalLength .bitrev n ↔ ∃ h, n = 2 ^ h := by simp [LegalLength]

theorem legalLength_of_ne_bitrev {i : Instr} {n : Nat} (hi : i ≠ .bitrev) : LegalLength i n ↔ ∃ h ≤ 23, n = 2 ^ h := by
  simp [LegalLength, hi]

/-- The model's length check passes exactly the legal lengths a 64-bit LEN can hold. -/
theorem isPowerOfTwo_lengthLimit {i : Instr} {w : Word} :
    isPowerOfTwo (lengthLimit i) w.toNat = true ↔ LegalLength i w.toNat := by
  by_cases hi : i = .bitrev
  · subst hi
    exact (isPowerOfTwo_word w).trans legalLength_bitrev.symm
  · rw [lengthLimit_of_ne_bitrev hi, legalLength_of_ne_bitrev hi]
    exact isPowerOfTwo_iff

theorem ne_powmod_and_ne_bitrev {i : Instr} (hi : i = .nttCt ∨ i = .nttGs ∨ i = .intt) : i ≠ .powmod ∧ i ≠ .bitrev := by
  rcases hi with rfl | rfl | rfl <;> decide

theorem eq_bitrev_or_transform {i : Instr} (hi : i ≠ .powmod) : i = .bitrev ∨ i = .nttCt ∨ i = .nttGs ∨ i = .intt := by
  cases i with
  | powmod => exact absurd rfl hi
  | bitrev | nttCt | nttGs | intt => decide

/-! ## The order of the checks (R207) -/

theorem checkTransform_of_checkSequence_error {m : Memory} {p n words : Nat} {a : Abort}
    (h : checkSequence Config.hmax p n words = .error a) : checkTransform m p n words = .error a := by
  rw [checkTransform, h]

theorem checkTransform_of_checkSequence_ok {m : Memory} {p n words : Nat}
    (h : checkSequence Config.hmax p n words = .ok ()) : checkTransform m p n words = scanReduced m p n := by
  rw [checkTransform, h]

theorem transformBody_of_checkTransform_error {network : List Nat → List Nat} {s : State} {a : Abort}
    (h : checkTransform s.dmem s.seqStart s.seqLength s.dmemWords = .error a) : transformBody network s = .error a := by
  rw [transformBody, h]

/-- A sequence command's first check is that of LEN and BASE. -/
theorem body_of_checkSequence_error {i : Instr} {s : State} {a : Abort} (hi : i ≠ .powmod)
    (h : checkSequence (lengthLimit i) s.seqStart s.seqLength s.dmemWords = .error a) : body i s = .error a := by
  rcases eq_bitrev_or_transform hi with rfl | htr
  · rw [body, bitrevBody, show (63 : Nat) = lengthLimit .bitrev from rfl, h]
  · obtain ⟨network, -, hbody⟩ := body_transform s htr
    rw [lengthLimit_of_ne_bitrev (ne_powmod_and_ne_bitrev htr).2] at h
    rw [hbody, transformBody_of_checkTransform_error (checkTransform_of_checkSequence_error h)]

/-- A transform's second check is the scan. -/
theorem body_of_scanReduced_error {i : Instr} {s : State} {a : Abort} (hi : i = .nttCt ∨ i = .nttGs ∨ i = .intt)
    (hc : checkSequence (lengthLimit i) s.seqStart s.seqLength s.dmemWords = .ok ())
    (h : scanReduced s.dmem s.seqStart s.seqLength = .error a) : body i s = .error a := by
  obtain ⟨network, -, hbody⟩ := body_transform s hi
  rw [lengthLimit_of_ne_bitrev (ne_powmod_and_ne_bitrev hi).2] at hc
  rw [hbody, transformBody_of_checkTransform_error ((checkTransform_of_checkSequence_ok hc).trans h)]

/-- Where the early end of a sequence command comes from: the check of LEN and BASE, or else a word of the sequence. -/
theorem body_error_of_sequence {i : Instr} {s : State} {a : Abort} (hi : i ≠ .powmod) (h : body i s = .error a) :
    checkSequence (lengthLimit i) s.seqStart s.seqLength s.dmemWords = .error a ∨
      (∃ info, a = .cmdError .unreduced info) ∨ ∃ f, a = .modelFault f := by
  cases hc : checkSequence (lengthLimit i) s.seqStart s.seqLength s.dmemWords with
  | error b =>
    rw [body_of_checkSequence_error hi hc] at h
    cases h
    exact .inl rfl
  | ok =>
    refine .inr ?_
    rcases eq_bitrev_or_transform hi with rfl | htr
    · obtain ⟨hpow, hin⟩ := checkSequence_ok.1 hc
      rcases bitrevBody_error h with ⟨-, hlen⟩ | ⟨-, -, hout⟩ | ⟨k, -, -, -, rfl, -⟩
      · exact absurd (hpow.symm.trans hlen) (by decide)
      · omega
      · exact .inr ⟨_, rfl⟩
    · obtain ⟨network, hgood, hbody⟩ := body_transform s htr
      have hcheck := transformBody_error hgood (hbody ▸ h)
      rw [lengthLimit_of_ne_bitrev (ne_powmod_and_ne_bitrev htr).2] at hc
      rw [checkTransform_of_checkSequence_ok hc] at hcheck
      obtain ⟨k, -, -, ⟨rfl, -⟩ | ⟨rfl, -⟩⟩ := scanReduced_error hcheck
      · exact .inl ⟨_, rfl⟩
      · exact .inr ⟨_, rfl⟩

/-! ## Through exec -/

theorem exec_of_modelFault {i : Instr} {s : State} {f : Fault} (h : body i s = .error (.modelFault f)) :
    exec i s = .fault f := by
  rw [exec_eq_body, h]
  rfl

theorem exec_fault {i : Instr} {s : State} {f : Fault} (h : exec i s = .fault f) : body i s = .error (.modelFault f) :=
  finishCommand_fault (exec_eq_body i s ▸ h)

/-- Each error code has a STATUS of its own (R201, R202). -/
theorem statusError_injective {c d : ErrCode} (h : statusError c = statusError d) : c = d := by
  cases c <;> cases d <;> revert h <;> decide

/-- STATUS after a command tells which error its body met (R201). -/
theorem body_of_status_error {i : Instr} {s t : State} {c : ErrCode} (h : exec i s = .next t)
    (hst : t.status = statusError c) : ∃ info, body i s = .error (.cmdError c info) := by
  rcases exec_next h with ⟨s', -, rfl⟩ | ⟨d, info, hbody, rfl⟩
  · exact absurd hst.symm (statusError_ne_statusDone c)
  · obtain rfl := statusError_injective hst
    exact ⟨info, hbody⟩

/-- An error of a sequence command other than UNREDUCED is one of the check of LEN and BASE. -/
theorem checkSequence_of_status_error {i : Instr} {s t : State} {c : ErrCode} (hi : i ≠ .powmod)
    (h : exec i s = .next t) (hst : t.status = statusError c) (hc : c ≠ .unreduced) :
    ∃ info, checkSequence (lengthLimit i) s.seqStart s.seqLength s.dmemWords = .error (.cmdError c info) := by
  obtain ⟨info, hbody⟩ := body_of_status_error h hst
  rcases body_error_of_sequence hi hbody with hcheck | ⟨info', heq⟩ | ⟨f, heq⟩
  · exact ⟨info, hcheck⟩
  · cases heq
    exact absurd rfl hc
  · cases heq

end Sys2Proof.Machine
end

section
/-! PROOFS of 60_exceptions.md: the command errors, one by one and in the rule's order, and the reads that stop. -/

namespace Sys2Proof.Machine

/-! ## BAD_LENGTH and RANGE (R203, R204) -/

section
variable {i : Instr} {s : State} (hi : i ≠ .powmod)
include hi

theorem exec_of_illegal_length (hn : ¬LegalLength i s.len.toNat) :
    exec i s = .next { s with status := 0x206, errinfo := 0, pending := false } := by
  rw [← isPowerOfTwo_lengthLimit, Bool.not_eq_true] at hn
  exact exec_of_error (body_of_checkSequence_error hi (checkSequence_badLength hn))

theorem status_ne_badLength {t : State} (hn : LegalLength i s.len.toNat)
    (h : exec i s = .next t) : t.status ≠ 0x206 := by
  intro hst
  obtain ⟨info, hcheck⟩ := checkSequence_of_status_error (c := .badLength) hi h hst (by decide)
  rcases checkSequence_error hcheck with ⟨-, hlen⟩ | ⟨heq, -⟩
  · exact absurd ((isPowerOfTwo_lengthLimit.2 hn).symm.trans hlen) (by decide)
  · cases heq

theorem exec_of_out_of_range (hn : LegalLength i s.len.toNat)
    (hout : s.dmemsz.toNat < s.base.toNat + s.len.toNat) :
    exec i s = .next { s with status := 0x306, errinfo := 0, pending := false } :=
  exec_of_error (body_of_checkSequence_error hi (checkSequence_range (isPowerOfTwo_lengthLimit.2 hn) hout))

theorem status_ne_range {t : State} (hin : s.base.toNat + s.len.toNat ≤ s.dmemsz.toNat) (h : exec i s = .next t) :
    t.status ≠ 0x306 := by
  intro hst
  obtain ⟨info, hcheck⟩ := checkSequence_of_status_error (c := .range) hi h hst (by decide)
  rcases checkSequence_error hcheck with ⟨heq, -⟩ | ⟨-, -, hout⟩
  · cases heq
  · exact absurd hin (Nat.not_le.2 hout)

end

/-- Settles O24: BAD_LENGTH is the length check's error, and no later check gives it. -/
theorem badLengthExactly : Obligations.BadLengthExactly := by
  constructor
  · intro i s hi
    obtain ⟨hne, hnb⟩ := ne_powmod_and_ne_bitrev hi
    rw [← legalLength_of_ne_bitrev hnb]
    exact ⟨exec_of_illegal_length hne, fun hn _ => status_ne_badLength hne hn⟩
  · intro s
    rw [← legalLength_bitrev]
    exact ⟨exec_of_illegal_length (by decide), fun hn _ => status_ne_badLength (by decide) hn⟩

/-- Settles O25: RANGE is the range check's error, and no later check gives it. -/
theorem rangeExactly : Obligations.RangeExactly := fun _ _ h hi hn hh =>
  ⟨exec_of_out_of_range hi ⟨h, hh, hn⟩, fun hin _ => status_ne_range hi hin⟩

/-! ## The reduced-input scan (R205, R211) -/

section
variable {i : Instr} {s : State} {j : Nat} (hi : i = .nttCt ∨ i = .nttGs ∨ i = .intt)
  (hn : LegalLength i s.len.toNat) (hp : s.base.toNat + s.len.toNat ≤ s.dmemsz.toNat)
  (hj : j < s.len.toNat)
  (hpre : ∀ k, k < j → ∃ v, s.dmem.read? (s.base.toNat + k) = some v ∧ v.toNat < Config.modulus)
include hn hp

theorem checkSequence_of_legal : checkSequence (lengthLimit i) s.seqStart s.seqLength s.dmemWords = .ok () :=
  checkSequence_ok.2 ⟨isPowerOfTwo_lengthLimit.2 hn, hp⟩

include hi hj hpre

theorem exec_of_unreduced {v : Word} (hv : s.dmem.read? (s.base.toNat + j) = some v) (hbad : Config.modulus ≤ v.toNat) :
    exec i s = .next { s with status := 0x406, errinfo := wordOf (s.base.toNat + j), pending := false } :=
  exec_of_error (body_of_scanReduced_error hi (checkSequence_of_legal hn hp)
    (scanReduced_unreduced hj hpre hv hbad))

theorem exec_of_unwritten (hv : s.dmem.read? (s.base.toNat + j) = none) :
    exec i s = .fault (.unwrittenRead (s.base.toNat + j)) :=
  exec_of_modelFault (body_of_scanReduced_error hi (checkSequence_of_legal hn hp)
    (scanReduced_unwritten hj hpre hv))

end

/-- Settles O26: past the check of LEN and BASE, the scan ends the command at its first failing word, and a sequence
without one is a list of field elements. -/
theorem reducedInputScan : Obligations.ReducedInputScan := by
  intro i s h hi hh hn hp
  refine ⟨fun j hj hpre => ?_, fun hall => ?_⟩
  · have hlegal : LegalLength i s.len.toNat := ⟨h, fun _ => hh, hn⟩
    rw [← hn] at hp hj
    exact ⟨fun v => exec_of_unreduced hi hlegal hp hj hpre, exec_of_unwritten hi hlegal hp hj hpre⟩
  · obtain ⟨network, hgood, hbody⟩ := body_transform s hi
    obtain ⟨a, hl, ha⟩ := Memory.exists_holds hall
    obtain ⟨m, hm, -⟩ := exec_transform hgood hbody hh hn hp hl ha
    exact ⟨m, hm⟩

/-! ## The order of the errors (R201, R207) -/

/-- Settles O27: the step is the command's, and each of its errors is reported when the checks before it pass. -/
theorem firstErrorWins : Obligations.FirstErrorWins := by
  intro s hturn
  have hrun {i : Instr} (hi : decode s.cmd = .ok i) : step s = exec i s :=
    (step_of_engineTurn hturn).trans (engineStep_of_decode hi)
  refine ⟨fun t ht => ?_, fun hillegal => ?_, fun hd hzero => ?_, fun hd => ?_, fun i hi hd => ?_⟩
  · obtain ⟨-, hhost, hresp, hfaulted, -⟩ := engineStep_next_frame (step_of_engineTurn hturn ▸ ht)
    exact ⟨hfaulted, hresp, hhost⟩
  · exact ⟨_, (step_of_engineTurn hturn).trans (engineStep_of_illegal hillegal), rfl⟩
  · exact ⟨_, (hrun hd).trans (exec_powmod_of_arg2_zero hzero), rfl⟩
  · rw [← legalLength_bitrev, hrun hd]
    exact ⟨fun hn => ⟨_, exec_of_illegal_length (by decide) hn, rfl⟩,
      fun hn hout => ⟨_, exec_of_out_of_range (by decide) hn hout, rfl⟩⟩
  · obtain ⟨hne, hnb⟩ := ne_powmod_and_ne_bitrev hi
    rw [← legalLength_of_ne_bitrev hnb, hrun hd]
    refine ⟨fun hn => ⟨_, exec_of_illegal_length hne hn, rfl⟩, fun hn =>
      ⟨fun hout => ⟨_, exec_of_out_of_range hne hn hout, rfl⟩, fun hin j hj hpre => ⟨?_, fun hnone => ?_⟩⟩⟩
    · rintro ⟨v, hv, hbad⟩
      have hword : s.base.toNat + j < 2 ^ 64 := by have := s.dmemsz.isLt; omega
      exact ⟨_, exec_of_unreduced hi hn hin hj hpre hv hbad, rfl,
        (BitVec.toNat_ofNat _ _).trans (Nat.mod_eq_of_lt hword)⟩
    · exact ⟨_, exec_of_unwritten hi hn hin hj hpre hnone⟩

/-- Settles O28: a command that does not end with 0x2 has met a command error of its body. -/
theorem errorsArePrecise : Obligations.ErrorsArePrecise := by
  intro i s t h hst
  rcases exec_next h with ⟨s', -, rfl⟩ | ⟨c, info, hbody, rfl⟩
  · exact absurd rfl hst
  · rcases body_error hbody with ⟨c', info', heq, hc, hinfo⟩ | ⟨k, -, -, -, heq, -⟩
    · cases heq
      refine ⟨rfl, ?_, fun hne => hinfo fun hun => hne (congrArg statusError hun)⟩
      cases c with
      | illegalCmd => exact absurd rfl hc
      | badLength => exact .inl rfl
      | range => exact .inr (.inl rfl)
      | unreduced => exact .inr (.inr (.inl rfl))
      | modulusZero => exact .inr (.inr (.inr rfl))
    · cases heq

/-! ## The reads that stop (R211, R213) -/

/-- An engine step stops only at an unwritten word of the command's sequence. -/
theorem engineStep_fault {s : State} {f : Fault} (h : engineStep s = .fault f) :
    ∃ k, f = .unwrittenRead k ∧ k < s.dmemWords ∧ s.dmem.read? k = none := by
  cases hd : decode s.cmd with
  | error e =>
    rw [engineStep, hd] at h
    cases h
  | ok i =>
    rw [engineStep_of_decode hd] at h
    rcases body_error (exec_fault h) with ⟨c, info, heq, -⟩ | ⟨k, -, hk, hin, heq, hnone⟩
    · cases heq
    · cases heq
      exact ⟨k, rfl, by omega, hnone⟩

/-- An event from outside stops only as a host read of an unwritten word. -/
theorem hostStep_fault {s : State} {e : HostEvent} {f : Fault} (h : hostStep s e = .fault f) :
    ∃ k, f = .unwrittenRead k ∧ k < s.dmemWords ∧ s.dmem.read? k = none := by
  cases e with
  | reset => cases h
  | transaction tr =>
    obtain ⟨k, -, hk, hf, hnone⟩ := transact_fault h
    exact ⟨k, hf, hk, hnone⟩

/-- Taking an event from the queue leaves DMEM and its size. -/
theorem nextMover_outside_dmem {s q : State} {e : HostEvent} (h : nextMover s = .outside e q) :
    q.dmem = s.dmem ∧ q.dmemsz = s.dmemsz := by
  obtain ⟨rest, -, ⟨-, -, -, rfl⟩ | ⟨-, rfl⟩⟩ := nextMover_outside h <;> exact ⟨rfl, rfl⟩

/-- Settles O48: the engine and the host stop only so, and the host reads the DMEM that stood before the step. -/
theorem onlyUnwrittenReadsStop : Obligations.OnlyUnwrittenReadsStop := by
  refine fun s => ⟨fun r => step_ne_refused, fun f h => ?_⟩
  cases hm : nextMover s with
  | engine =>
    rw [step, hm] at h
    exact engineStep_fault h
  | outside e q =>
    rw [step, hm] at h
    obtain ⟨hdmem, hsize⟩ := nextMover_outside_dmem hm
    rw [← hdmem, ← hsize]
    exact hostStep_fault h
  | nobody =>
    rw [step, hm] at h
    cases h

end Sys2Proof.Machine
end

section
/-! PROOFS of 70_reset_and_hazards.md: the reset input, which no pending command holds. -/

namespace Sys2Proof.Machine

/-- While a command is pending, an event that is not held goes before the engine as long as the delay lasts (R181, R231). -/
theorem nextMover_of_notHeld {s : State} {e : HostEvent} {rest : List HostEvent} (hp : s.pending = true)
    (hd : s.delay ≠ 0) (hh : s.host = e :: rest) (hn : notHeld e = true) :
    nextMover s = .outside e (s.takeEvent rest).spendDelay := by
  simp [nextMover, hp, hd, hh, hn]

/-- A pending command does not hold the reset input (R231; log 9). -/
theorem step_of_reset_of_pending {s : State} {rest : List HostEvent} (hp : s.pending = true) (hd : s.delay ≠ 0)
    (hh : s.host = .reset :: rest) : step s = .next (s.takeEvent rest).spendDelay.resetEvent := by
  have hmover : nextMover s = .outside .reset (s.takeEvent rest).spendDelay :=
    nextMover_of_notHeld hp hd hh (by decide)
  rw [step, hmover]
  rfl

/-- With nothing pending the reset input is the host's move (R189, R230). -/
theorem step_of_reset_of_idle {s : State} {rest : List HostEvent} (hp : s.pending = false)
    (hh : s.host = .reset :: rest) : step s = .next (s.takeEvent rest).resetEvent :=
  step_of_hostTurn ⟨hp, hh⟩

/-- Settles O40: pending or idle, the step is the reset event; the two differ in the delay it leaves, which is not claimed. -/
theorem resetEvent : Obligations.ResetEvent := by
  intro s rest hh hdelay
  cases hp : s.pending with
  | true => exact ⟨rest, s.responses, s.delay - 1, s.draws, step_of_reset_of_pending hp (hdelay hp) hh⟩
  | false => exact ⟨rest, s.responses, s.delay, s.draws, step_of_reset_of_idle hp hh⟩

end Sys2Proof.Machine
end
